-- ==== Sys2Proof/Word.lean ====
section
/-! DEFINITION. The word types of the NEC16: registers and addresses are 16 bits, a bus transaction moves 8 bits
(00_scope.md R6), and an instruction word is four nibbles (30_encoding.md R61). -/
namespace Sys2Proof

/-- A register value or an address: 16 bits, unsigned (R6, R20). -/
abbrev Word := BitVec 16

/-- What one bus transaction moves: 8 bits (R6, R41, R42). -/
abbrev Byte := BitVec 8

/-- A four-bit field of an instruction word (R61). -/
abbrev Nibble := BitVec 4

end Sys2Proof
end

