-- ==== Sys2Proof/Syntax.lean ====
section
/-! DEFINITION. The instruction set as data: one constructor for each of the 35 rows of spec/opcode_table.json, with
the fields the instruction reads (30_encoding.md R65). A field an instruction does not read is free (R71) and is not
kept. The inline `imm16` of a four-byte form is not part of the instruction: its handler reads it over the bus, and
that read can fail or see a byte the same instruction stored (R59, R84; log 21). -/
namespace Sys2Proof

/-- The index of a register, 0 to 15 (R20). -/
abbrev Reg := Fin 16

/-- x1, the index register of GM and SM (R22). -/
abbrev Reg.ix : Reg := 1
/-- x2, the condition-result register (R23). -/
abbrev Reg.cr : Reg := 2
/-- x13, the stack pointer (R25). -/
abbrev Reg.sp : Reg := 13
/-- x15, the program counter (R26). -/
abbrev Reg.pc : Reg := 15

/-- The instructions, in the order of spec/opcode_table.json. -/
inductive Instr where
  /-- JMP rA (R101). -/
  | jmp (ra : Reg)
  /-- GM rA (R103). -/
  | gm (ra : Reg)
  /-- SM rA (R106). -/
  | sm (ra : Reg)
  /-- OR rA, imm8 (R120). -/
  | orImm (ra : Reg) (imm8 : Byte)
  /-- ORR rA, rB (R121). -/
  | orr (ra rb : Reg)
  /-- AND rA, rB (R122). -/
  | and (ra rb : Reg)
  /-- XOR rA, rB (R123). -/
  | xor (ra rb : Reg)
  /-- NOT rA (R124). -/
  | not (ra : Reg)
  /-- SHL rA, rB (R125). -/
  | shl (ra rb : Reg)
  /-- SHR rA, rB (R126). -/
  | shr (ra rb : Reg)
  /-- ADD rA, rB (R127). -/
  | add (ra rb : Reg)
  /-- SUB rA, rB (R128). -/
  | sub (ra rb : Reg)
  /-- MUL rA, rB (R129). -/
  | mul (ra rb : Reg)
  /-- DIV rA, rB (R130). -/
  | div (ra rb : Reg)
  /-- MOD rA, rB (R131). -/
  | mod (ra rb : Reg)
  /-- NOP (R151). -/
  | nop
  /-- CMP_EQ rB, rC (R152). -/
  | cmpEq (rb rc : Reg)
  /-- CMP_GT rB, rC (R153). -/
  | cmpGt (rb rc : Reg)
  /-- CMP_LT rB, rC (R154). -/
  | cmpLt (rb rc : Reg)
  /-- LOAD_IMM rB, imm16 (R155). -/
  | loadImm (rb : Reg)
  /-- JMP_IMM addr16 (R156). -/
  | jmpImm
  /-- COPY rB, rC (R157). -/
  | copy (rb rc : Reg)
  /-- SWAP rB, rC (R158). -/
  | swap (rb rc : Reg)
  /-- UJMP addr16 (R159). -/
  | ujmp
  /-- A reserved extended word, sub-opcode 0xA or 0xB (R161). -/
  | reservedExtAB (sub : Nibble)
  /-- A reserved extended word, sub-opcode 0xC to 0xF (R161). -/
  | reservedExtCF (sub : Nibble)
  /-- PUSH_IMM imm16 (R181). -/
  | pushImm
  /-- PUSH_REG rC (R182). -/
  | pushReg (rc : Reg)
  /-- POP_REG rC (R183). -/
  | popReg (rc : Reg)
  /-- CALL_ADDR addr16 (R184). -/
  | callAddr
  /-- CALL_REG rC (R185). -/
  | callReg (rc : Reg)
  /-- RET (R186). -/
  | ret
  /-- STORE_ADDR rC, addr16 (R187). -/
  | storeAddr (rc : Reg)
  /-- LOAD_ADDR rC, addr16 (R188). -/
  | loadAddr (rc : Reg)
  /-- A reserved stack word, sub-opcode 0x8 to 0xF (R189). -/
  | reservedStack8F (sub : Nibble)
  deriving DecidableEq, Repr

end Sys2Proof
end

