-- ==== Sys2Proof/WellFormed.lean ====
section
/-! DEFINITION. Which terms of Instr are instructions of the hardware. Registers and immediates are of the field's
width by their types; only the reserved rows carry a sub-opcode that must lie in the row's range (30_encoding.md R69 to
R71). -/
namespace Sys2Proof

/-- The sub-opcode ranges of the rows RESERVED_EXT_A_B, RESERVED_EXT_C_F and RESERVED_STACK_8_F. -/
def Instr.wellFormed : Instr → Bool
  | .reservedExtAB n => n == 0xA || n == 0xB
  | .reservedExtCF n => n == 0xC || n == 0xD || n == 0xE || n == 0xF
  | .reservedStack8F n => n.msb
  | .jmp _ | .gm _ | .sm _ | .orImm _ _ | .orr _ _ | .and _ _ | .xor _ _ | .not _ | .shl _ _ | .shr _ _ => true
  | .add _ _ | .sub _ _ | .mul _ _ | .div _ _ | .mod _ _ => true
  | .nop | .cmpEq _ _ | .cmpGt _ _ | .cmpLt _ _ | .loadImm _ | .jmpImm | .copy _ _ | .swap _ _ | .ujmp => true
  | .pushImm | .pushReg _ | .popReg _ | .callAddr | .callReg _ | .ret | .storeAddr _ | .loadAddr _ => true

end Sys2Proof
end

