-- ==== Sys2Proof/Decode.lean ====
section
/-! DEFINITION. The decoder and the encoder of 30_encoding.md. Decoding is total and cannot fail: every word is exactly
one instruction (R63, R68 to R71). The only bytes refused are those that hold no whole word. -/
namespace Sys2Proof

/-- The word `W = b0:b1` of the two fetched bytes, the first in bits 15 to 8 (R47, R60; D1, log 9). -/
def wordOf (b0 b1 : Byte) : Word := b0 ++ b1

/-- The low byte of a 16-bit value (R46). -/
def lowByte (v : Word) : Byte := v.extractLsb' 0 8

/-- The high byte of a 16-bit value (R46). -/
def highByte (v : Word) : Byte := v.extractLsb' 8 8

/-- The 16-bit value of two bytes, the low one at the lower address (R46). -/
def ofLittleEndian (lo hi : Byte) : Word := hi ++ lo

/-- The six fields of the instruction word (R61). -/
structure Fields where
  opcode : Nibble
  regA : Nibble
  regB : Nibble
  rrB : Nibble
  imm12 : BitVec 12
  raw2 : Byte
  deriving DecidableEq, Repr

/-- The bits of `W` that each field takes (R61). -/
def fieldsOf (w : Word) : Fields where
  opcode := w.extractLsb' 12 4
  regA := w.extractLsb' 8 4
  regB := w.extractLsb' 4 4
  rrB := w.extractLsb' 0 4
  imm12 := w.extractLsb' 0 12
  raw2 := w.extractLsb' 0 8

/-- A register field names the register of that number (R20). -/
def regOf (n : Nibble) : Reg := n.toFin

/-- OR's immediate: `imm12 & 0xFF` (R64; C1). -/
def imm8Of (f : Fields) : Byte := f.imm12.extractLsb' 0 8

/-! The last arm of each map below is no encoding: a selector has sixteen values, and Lean asks for the rest of Nat. -/

/-- The stack and memory map, by `regB` as a tertiary sub-opcode (R70, R180). -/
def stackDispatch (f : Fields) : Instr :=
  match f.regB.toFin with
  | 0x0 => .pushImm
  | 0x1 => .pushReg (regOf f.rrB)
  | 0x2 => .popReg (regOf f.rrB)
  | 0x3 => .callAddr
  | 0x4 => .callReg (regOf f.rrB)
  | 0x5 => .ret
  | 0x6 => .storeAddr (regOf f.rrB)
  | 0x7 => .loadAddr (regOf f.rrB)
  | 0x8 | 0x9 | 0xA | 0xB | 0xC | 0xD | 0xE | 0xF => .reservedStack8F f.regB
  | ⟨_ + 16, h⟩ => absurd h (by omega)

/-- The extended map, by `regA` as a sub-opcode (R69, R150). -/
def extendedDispatch (f : Fields) : Instr :=
  match f.regA.toFin with
  | 0x0 => .nop
  | 0x1 => .cmpEq (regOf f.regB) (regOf f.rrB)
  | 0x2 => .cmpGt (regOf f.regB) (regOf f.rrB)
  | 0x3 => .cmpLt (regOf f.regB) (regOf f.rrB)
  | 0x4 => .loadImm (regOf f.regB)
  | 0x5 => .jmpImm
  | 0x6 => .copy (regOf f.regB) (regOf f.rrB)
  | 0x7 => .swap (regOf f.regB) (regOf f.rrB)
  | 0x8 => .ujmp
  | 0x9 => stackDispatch f
  | 0xA | 0xB => .reservedExtAB f.regA
  | 0xC | 0xD | 0xE | 0xF => .reservedExtCF f.regA
  | ⟨_ + 16, h⟩ => absurd h (by omega)

/-- The primary map, by `opcode` (R68, R85, R100). -/
def primaryDispatch (f : Fields) : Instr :=
  match f.opcode.toFin with
  | 0x0 => extendedDispatch f
  | 0x1 => .jmp (regOf f.regA)
  | 0x2 => .gm (regOf f.regA)
  | 0x3 => .sm (regOf f.regA)
  | 0x4 => .orImm (regOf f.regA) (imm8Of f)
  | 0x5 => .orr (regOf f.regA) (regOf f.regB)
  | 0x6 => .and (regOf f.regA) (regOf f.regB)
  | 0x7 => .xor (regOf f.regA) (regOf f.regB)
  | 0x8 => .not (regOf f.regA)
  | 0x9 => .shl (regOf f.regA) (regOf f.regB)
  | 0xA => .shr (regOf f.regA) (regOf f.regB)
  | 0xB => .add (regOf f.regA) (regOf f.regB)
  | 0xC => .sub (regOf f.regA) (regOf f.regB)
  | 0xD => .mul (regOf f.regA) (regOf f.regB)
  | 0xE => .div (regOf f.regA) (regOf f.regB)
  | 0xF => .mod (regOf f.regA) (regOf f.regB)
  | ⟨_ + 16, h⟩ => absurd h (by omega)

/-- The instruction a word is (R63). -/
def decodeWord (w : Word) : Instr := primaryDispatch (fieldsOf w)

/-- Why bytes are no instruction: there are fewer than two of them. No word is refused (R63, R71). -/
inductive DecodeRefusal where
  | truncated
  deriving DecidableEq, Repr

/-- The first instruction of a list of bytes and the bytes after its word (R60, R63). An inline operand stays in the
rest: its handler reads it. -/
def decodeBytes : List Byte → Except DecodeRefusal (Instr × List Byte)
  | b0 :: b1 :: rest => .ok (decodeWord (wordOf b0 b1), rest)
  | [_] => .error .truncated
  | [] => .error .truncated

/-- Whether an instruction has a 16-bit inline operand at P and P+1 (R66). -/
def Instr.hasOperand : Instr → Bool
  | .loadImm _ | .jmpImm | .ujmp | .pushImm | .callAddr | .storeAddr _ | .loadAddr _ => true
  | .jmp _ | .gm _ | .sm _ | .orImm _ _ | .orr _ _ | .and _ _ | .xor _ _ | .not _ | .shl _ _ | .shr _ _ => false
  | .add _ _ | .sub _ _ | .mul _ _ | .div _ _ | .mod _ _ => false
  | .nop | .cmpEq _ _ | .cmpGt _ _ | .cmpLt _ _ | .copy _ _ | .swap _ _ | .reservedExtAB _ | .reservedExtCF _ => false
  | .pushReg _ | .popReg _ | .callReg _ | .ret | .reservedStack8F _ => false

/-- The length of an instruction in bytes (R66). -/
def Instr.length (i : Instr) : Nat := if i.hasOperand then 4 else 2

/-- The length told from the word alone, in the spec's own terms (R66). -/
def wordLength (w : Word) : Nat :=
  let f := fieldsOf w
  if f.opcode = 0 ∧
      ((f.regA = 4 ∨ f.regA = 5 ∨ f.regA = 8) ∨
        (f.regA = 9 ∧ (f.regB = 0 ∨ f.regB = 3 ∨ f.regB = 6 ∨ f.regB = 7)))
  then 4 else 2

/-- The word of four nibbles, `opcode:regA:regB:rrB` (R61). -/
def wordOfNibbles (opcode regA regB rrB : Nibble) : Word := opcode ++ regA ++ regB ++ rrB

/-- The nibble that names a register (R20). -/
def nibbleOf (r : Reg) : Nibble := BitVec.ofFin r

/-- The word of an instruction, 0 in every field it does not read (R67, R73; log 19). -/
def encode : Instr → Word
  | .jmp ra => wordOfNibbles 0x1 (nibbleOf ra) 0 0
  | .gm ra => wordOfNibbles 0x2 (nibbleOf ra) 0 0
  | .sm ra => wordOfNibbles 0x3 (nibbleOf ra) 0 0
  | .orImm ra imm8 => wordOfNibbles 0x4 (nibbleOf ra) (imm8.extractLsb' 4 4) (imm8.extractLsb' 0 4)
  | .orr ra rb => wordOfNibbles 0x5 (nibbleOf ra) (nibbleOf rb) 0
  | .and ra rb => wordOfNibbles 0x6 (nibbleOf ra) (nibbleOf rb) 0
  | .xor ra rb => wordOfNibbles 0x7 (nibbleOf ra) (nibbleOf rb) 0
  | .not ra => wordOfNibbles 0x8 (nibbleOf ra) 0 0
  | .shl ra rb => wordOfNibbles 0x9 (nibbleOf ra) (nibbleOf rb) 0
  | .shr ra rb => wordOfNibbles 0xA (nibbleOf ra) (nibbleOf rb) 0
  | .add ra rb => wordOfNibbles 0xB (nibbleOf ra) (nibbleOf rb) 0
  | .sub ra rb => wordOfNibbles 0xC (nibbleOf ra) (nibbleOf rb) 0
  | .mul ra rb => wordOfNibbles 0xD (nibbleOf ra) (nibbleOf rb) 0
  | .div ra rb => wordOfNibbles 0xE (nibbleOf ra) (nibbleOf rb) 0
  | .mod ra rb => wordOfNibbles 0xF (nibbleOf ra) (nibbleOf rb) 0
  | .nop => wordOfNibbles 0 0x0 0 0
  | .cmpEq rb rc => wordOfNibbles 0 0x1 (nibbleOf rb) (nibbleOf rc)
  | .cmpGt rb rc => wordOfNibbles 0 0x2 (nibbleOf rb) (nibbleOf rc)
  | .cmpLt rb rc => wordOfNibbles 0 0x3 (nibbleOf rb) (nibbleOf rc)
  | .loadImm rb => wordOfNibbles 0 0x4 (nibbleOf rb) 0
  | .jmpImm => wordOfNibbles 0 0x5 0 0
  | .copy rb rc => wordOfNibbles 0 0x6 (nibbleOf rb) (nibbleOf rc)
  | .swap rb rc => wordOfNibbles 0 0x7 (nibbleOf rb) (nibbleOf rc)
  | .ujmp => wordOfNibbles 0 0x8 0 0
  | .reservedExtAB n => wordOfNibbles 0 n 0 0
  | .reservedExtCF n => wordOfNibbles 0 n 0 0
  | .pushImm => wordOfNibbles 0 0x9 0x0 0
  | .pushReg rc => wordOfNibbles 0 0x9 0x1 (nibbleOf rc)
  | .popReg rc => wordOfNibbles 0 0x9 0x2 (nibbleOf rc)
  | .callAddr => wordOfNibbles 0 0x9 0x3 0
  | .callReg rc => wordOfNibbles 0 0x9 0x4 (nibbleOf rc)
  | .ret => wordOfNibbles 0 0x9 0x5 0
  | .storeAddr rc => wordOfNibbles 0 0x9 0x6 (nibbleOf rc)
  | .loadAddr rc => wordOfNibbles 0 0x9 0x7 (nibbleOf rc)
  | .reservedStack8F n => wordOfNibbles 0 0x9 n 0

/-- A row of spec/opcode_table.json: a word belongs to it when its masked bits are the pattern; `length` counts the
inline operand. -/
structure OpcodeRow where
  mnemonic : String
  pattern : Word
  mask : Word
  length : Nat
  deriving DecidableEq, Repr

/-- Whether a word belongs to a row. -/
def OpcodeRow.covers (r : OpcodeRow) (w : Word) : Bool := w &&& r.mask == r.pattern

/-- The first twelve rows of the table. -/
def opcodeRows1 : List OpcodeRow := [
  ⟨"JMP", 0x1000, 0xF000, 2⟩,
  ⟨"GM", 0x2000, 0xF000, 2⟩,
  ⟨"SM", 0x3000, 0xF000, 2⟩,
  ⟨"OR", 0x4000, 0xF000, 2⟩,
  ⟨"ORR", 0x5000, 0xF000, 2⟩,
  ⟨"AND", 0x6000, 0xF000, 2⟩,
  ⟨"XOR", 0x7000, 0xF000, 2⟩,
  ⟨"NOT", 0x8000, 0xF000, 2⟩,
  ⟨"SHL", 0x9000, 0xF000, 2⟩,
  ⟨"SHR", 0xA000, 0xF000, 2⟩,
  ⟨"ADD", 0xB000, 0xF000, 2⟩,
  ⟨"SUB", 0xC000, 0xF000, 2⟩]

/-- The next twelve rows of the table. -/
def opcodeRows2 : List OpcodeRow := [
  ⟨"MUL", 0xD000, 0xF000, 2⟩,
  ⟨"DIV", 0xE000, 0xF000, 2⟩,
  ⟨"MOD", 0xF000, 0xF000, 2⟩,
  ⟨"NOP", 0x0000, 0xFF00, 2⟩,
  ⟨"CMP_EQ", 0x0100, 0xFF00, 2⟩,
  ⟨"CMP_GT", 0x0200, 0xFF00, 2⟩,
  ⟨"CMP_LT", 0x0300, 0xFF00, 2⟩,
  ⟨"LOAD_IMM", 0x0400, 0xFF00, 4⟩,
  ⟨"JMP_IMM", 0x0500, 0xFF00, 4⟩,
  ⟨"COPY", 0x0600, 0xFF00, 2⟩,
  ⟨"SWAP", 0x0700, 0xFF00, 2⟩,
  ⟨"UJMP", 0x0800, 0xFF00, 4⟩]

/-- The last eleven rows of the table. -/
def opcodeRows3 : List OpcodeRow := [
  ⟨"RESERVED_EXT_A_B", 0x0A00, 0xFE00, 2⟩,
  ⟨"RESERVED_EXT_C_F", 0x0C00, 0xFC00, 2⟩,
  ⟨"PUSH_IMM", 0x0900, 0xFFF0, 4⟩,
  ⟨"PUSH_REG", 0x0910, 0xFFF0, 2⟩,
  ⟨"POP_REG", 0x0920, 0xFFF0, 2⟩,
  ⟨"CALL_ADDR", 0x0930, 0xFFF0, 4⟩,
  ⟨"CALL_REG", 0x0940, 0xFFF0, 2⟩,
  ⟨"RET", 0x0950, 0xFFF0, 2⟩,
  ⟨"STORE_ADDR", 0x0960, 0xFFF0, 4⟩,
  ⟨"LOAD_ADDR", 0x0970, 0xFFF0, 4⟩,
  ⟨"RESERVED_STACK_8_F", 0x0980, 0xFF80, 2⟩]

/-- The opcode table (R68 to R71), row for row. -/
def opcodeTable : List OpcodeRow := opcodeRows1 ++ opcodeRows2 ++ opcodeRows3

/-- The mnemonic of an instruction's row. -/
def Instr.mnemonic : Instr → String
  | .jmp _ => "JMP"
  | .gm _ => "GM"
  | .sm _ => "SM"
  | .orImm _ _ => "OR"
  | .orr _ _ => "ORR"
  | .and _ _ => "AND"
  | .xor _ _ => "XOR"
  | .not _ => "NOT"
  | .shl _ _ => "SHL"
  | .shr _ _ => "SHR"
  | .add _ _ => "ADD"
  | .sub _ _ => "SUB"
  | .mul _ _ => "MUL"
  | .div _ _ => "DIV"
  | .mod _ _ => "MOD"
  | .nop => "NOP"
  | .cmpEq _ _ => "CMP_EQ"
  | .cmpGt _ _ => "CMP_GT"
  | .cmpLt _ _ => "CMP_LT"
  | .loadImm _ => "LOAD_IMM"
  | .jmpImm => "JMP_IMM"
  | .copy _ _ => "COPY"
  | .swap _ _ => "SWAP"
  | .ujmp => "UJMP"
  | .reservedExtAB _ => "RESERVED_EXT_A_B"
  | .reservedExtCF _ => "RESERVED_EXT_C_F"
  | .pushImm => "PUSH_IMM"
  | .pushReg _ => "PUSH_REG"
  | .popReg _ => "POP_REG"
  | .callAddr => "CALL_ADDR"
  | .callReg _ => "CALL_REG"
  | .ret => "RET"
  | .storeAddr _ => "STORE_ADDR"
  | .loadAddr _ => "LOAD_ADDR"
  | .reservedStack8F _ => "RESERVED_STACK_8_F"

/-- The bits of the word that an instruction reads, its selectors among them, by the formats of R65 and R67. -/
def Instr.readMask : Instr → Word
  | .jmp _ => 0xFF00
  | .gm _ => 0xFF00
  | .sm _ => 0xFF00
  | .orImm _ _ => 0xFFFF
  | .orr _ _ => 0xFFF0
  | .and _ _ => 0xFFF0
  | .xor _ _ => 0xFFF0
  | .not _ => 0xFF00
  | .shl _ _ => 0xFFF0
  | .shr _ _ => 0xFFF0
  | .add _ _ => 0xFFF0
  | .sub _ _ => 0xFFF0
  | .mul _ _ => 0xFFF0
  | .div _ _ => 0xFFF0
  | .mod _ _ => 0xFFF0
  | .nop => 0xFF00
  | .cmpEq _ _ => 0xFFFF
  | .cmpGt _ _ => 0xFFFF
  | .cmpLt _ _ => 0xFFFF
  | .loadImm _ => 0xFFF0
  | .jmpImm => 0xFF00
  | .copy _ _ => 0xFFFF
  | .swap _ _ => 0xFFFF
  | .ujmp => 0xFF00
  | .reservedExtAB _ => 0xFF00
  | .reservedExtCF _ => 0xFF00
  | .pushImm => 0xFFF0
  | .pushReg _ => 0xFFFF
  | .popReg _ => 0xFFFF
  | .callAddr => 0xFFF0
  | .callReg _ => 0xFFFF
  | .ret => 0xFFF0
  | .storeAddr _ => 0xFFFF
  | .loadAddr _ => 0xFFFF
  | .reservedStack8F _ => 0xFFF0

/-- The bytes of a word in memory order: `b0` at the lower address (R47, R73). -/
def wordBytes (w : Word) : List Byte := [highByte w, lowByte w]

/-- The bytes of an inline operand in memory order: low byte first (R46, R73). -/
def operandBytes (v : Word) : List Byte := [lowByte v, highByte v]

/-- All the bytes of an instruction: its word, and for a four-byte form the operand after it (R73). -/
def encodeBytes (i : Instr) (operand : Word) : List Byte :=
  wordBytes (encode i) ++ (if i.hasOperand then operandBytes operand else [])

/-- The four bytes that hold an instruction of the opcode table's numbering: `W` in bits 15 to 0, an inline operand in
bits 31 to 16, every bit from `nbits` up 0. -/
def tableBytes (nbits w : Nat) : List Byte :=
  let v := w % 2 ^ nbits
  wordBytes (BitVec.ofNat 16 v) ++ operandBytes (BitVec.ofNat 16 (v / 65536))

/-- The instruction the decoder reads from an instruction numbered as spec/opcode_table.json numbers its bits. -/
def decodeTableWord (nbits w : Nat) : Option Instr :=
  match decodeBytes (tableBytes nbits w) with
  | .ok (i, _) => some i
  | .error _ => none

end Sys2Proof
end

