-- ==== Sys2Proof/Config.lean ====
section
/-! DEFINITION. The parameters of 00_scope.md R6 that are fixed for the machine. The two that the host supplies
(`init_regs` and `bus`) are not constants here: any value of them is a State (Machine/State.lean), and the two values
below say which one State.reset takes. No value of this hardware is left undefined, so there is no free value. -/
namespace Sys2Proof.Config

/-- The fetch sentinel: a step that starts with this value in pc fetches nothing (R6, R30). -/
def fetchSentinel : Word := 0xFFFF

/-- What advances pc past the two-byte instruction word, or past a two-byte inline operand, and what moves sp by one
stack entry (R28). -/
def twoBytes : Word := 2

/-- The conventional entry point (R6, R55, R251), the pc of State.reset.
DESIGN CHOICE, unsafe (log 4): the spec makes `init_regs(15)` the host's. -/
def entryPoint : Word := 3

/-- The value State.reset gives x0 to x14.
DESIGN CHOICE, unsafe (log 3): the spec makes `init_regs` the host's and implies no default. -/
def initialRegister : Word := 0

/-- What a byte of the store behind the bus reads as while nothing lists it.
DESIGN CHOICE, unsafe (log 2): the spec leaves `ram_init` open (D22); its test vectors take 0. -/
def unlistedByte : Byte := 0

/-- The largest ROM file the harness can hold: 65536 bytes less the three addresses of its devices (R234, D22). -/
def harnessRomLimit : Nat := 65533

/-- The address at which the harness loads byte 0 of its ROM file (R230, R234). -/
def harnessRomBase : Nat := 3

end Sys2Proof.Config
end

