-- ==== Sys2Proof/Machine/State.lean ====
section
/-! DEFINITION. The state of the core and of what stands behind its bus, the reasons a step can stop, and the state after
construction (10_state.md, 20_memory.md, 60_exceptions.md, 70_reset_and_hazards.md). Everything is plain data. -/
namespace Sys2Proof.Machine

open Sys2Proof

/-- The closed set of error codes a step can return (R210). They have no numeric values (D11). -/
inductive ErrorCode where
  /-- The bus rejected an address (R211). -/
  | addressInvalid
  /-- No instruction can be fetched: pc is the sentinel (R213). -/
  | instructionInvalid
  /-- A failure that the bus defines (R214). -/
  | unknownError
  /-- Division or remainder by zero (R212). -/
  | arithmeticFault
  deriving DecidableEq, Repr

/-- What becomes of one bus transaction: answered `Ok` with a value, answered `Err` with a code (R41, R42), or never
answered (R44). Only the harness's exit strobe ends the run instead (R231, D20). -/
inductive BusAnswer (α : Type) where
  | ok (value : α)
  | err (code : ErrorCode)
  | silent
  | runEnds
  deriving DecidableEq, Repr

/-- One transaction as the bus observes it, with its answer: the context handle, the address, and for a write the byte
(R41, R42). -/
inductive Transaction where
  | read (ctx : Nat) (addr : Word) (answer : BusAnswer Byte)
  | write (ctx : Nat) (addr : Word) (byte : Byte) (answer : BusAnswer Unit)
  deriving DecidableEq, Repr

/-- How the host dictates the answer to one coming transaction (R43 to R45, D13, D14; log 1). -/
inductive Directive where
  /-- The bus answers as its map and its store say. -/
  | served
  /-- A read is answered `Ok` with this byte; a write is answered `Ok` and stored nowhere the store shows. -/
  | reply (byte : Byte)
  /-- The transaction is answered `Err` with this code, whichever of the four it is (R216). -/
  | reject (code : ErrorCode)
  /-- The transaction is never answered (R44). -/
  | silent
  deriving DecidableEq, Repr

/-- What a region of the address space is, where it is not plain memory (R43, R230 to R234). -/
inductive Port where
  /-- Read like memory; a write is rejected (the harness's ROM with `rom_writable` false, R234, D22). -/
  | readOnly
  /-- Every transaction is answered `Err` with this code (R43). -/
  | rejects (code : ErrorCode)
  /-- Address 0 of the harness (R231). -/
  | exitStrobe
  /-- Address 1 of the harness (R232). -/
  | charInput
  /-- Address 2 of the harness (R233). -/
  | charOutput
  deriving DecidableEq, Repr

/-- A region of the bus's address map: the addresses `first` to `last`, both inclusive. -/
structure Region where
  first : Nat
  last : Nat
  port : Port
  deriving DecidableEq, Repr

/-- The byte store behind the bus: the bytes that differ from `Config.unlistedByte`, by strictly rising address. -/
abbrev Memory := List Host.Cell

/-- The bus, the parameter `bus` of R6 and D13 as plain data (log 1). -/
structure Bus where
  /-- The bytes of the flat store (R40, R234, D14). -/
  cells : Memory
  /-- The regions that are not plain memory; the first that holds an address decides (R43). -/
  map : List Region
  /-- The answers the host dictates to the coming transactions, oldest first. When none is left, every transaction is
  served by the map and the store. -/
  answers : List Directive
  /-- The characters a read of the harness's address 1 will give, oldest first (R232). -/
  input : List Byte
  /-- What such a read gives when no character is left: `eof_byte`, or for `none` no answer (R232, D21). -/
  eof : Option Byte
  /-- The characters emitted at the harness's address 2, oldest first (R233). -/
  output : List Byte
  deriving DecidableEq, Repr

/-- The state: the register file, which is all the core holds from one step to the next (R20, R34, R92), the context
handle and the bus it refers to (R20, R35, R250), and the record of its transactions, which nothing reads (log 7). -/
structure State where
  /-- The sixteen registers x0 to x15 (R20). -/
  regs : Vector Word 16
  /-- The opaque context handle, passed with every transaction and never inspected (R41; log 8). -/
  ctx : Nat
  /-- What answers the transactions. -/
  bus : Bus
  /-- The transactions issued so far, oldest first: the model's own field (log 7). -/
  log : List Transaction
  deriving DecidableEq, Repr

/-- Why a step does not answer `Ok`. Each carries the state the step leaves, because a further step would run from it
(R90, R220; log 5). -/
inductive Fault where
  /-- The step returned `Err(code)` (R86, R215). Raised by the step driver at the sentinel, by DIV and MOD on a zero
  divisor, and by any transaction the bus answers with an error. Safe: the step stops as the spec says, and the state
  left is the one of R90. -/
  | err (code : ErrorCode) (left : State)
  /-- A transaction of the step is never answered, so the step never ends (R44). Raised by a transaction the bus leaves
  silent. Safe: an explicit stuck state, as D13 asks. -/
  | stuck (left : State)
  /-- The run ended at a write to the harness's exit strobe (R231, D20). Raised by that write only. Unsafe where a
  harness would run the rest of the instruction: the spec chose (log 18). -/
  | runEnded (left : State)
  deriving DecidableEq, Repr

/-- The state a stopped step leaves (R90). -/
def Fault.left : Fault → State
  | .err _ s => s
  | .stuck s => s
  | .runEnded s => s

/-- What the model gives no meaning. -/
inductive Refusal where
  /-- An instruction that has no meaning yet; every instruction has one, so no arm of exec raises it. Safe. -/
  | notModelled (mnemonic : String)
  /-- A ROM file longer than 65533 bytes, refused at load (D22). Raised by the harness's loader, never by a step. Safe. -/
  | romTooLong (bytes : Nat)
  deriving DecidableEq, Repr

/-- A bus that is a plain memory over the whole space, nothing listed (D14, the test vectors' instance). -/
def Bus.plain : Bus :=
  { cells := [], map := [], answers := [], input := [], eof := none, output := [] }

/-- Construction, the core's reset: the host gives the register file, the bus and the handle; all sixteen registers are
written and no transaction is issued (R250). -/
def State.construct (initRegs : Vector Word 16) (bus : Bus) (ctx : Nat) : State :=
  { regs := initRegs, ctx := ctx, bus := bus, log := [] }

/-- The initial register file State.reset takes: pc at the conventional entry point, every other register at
`Config.initialRegister`. DESIGN CHOICE, unsafe (log 3, log 4): the spec leaves `init_regs` to the host. -/
def resetRegs : Vector Word 16 :=
  (Vector.replicate 16 Config.initialRegister).set 15 Config.entryPoint

/-- The machine right after construction with that register file on a plain memory (R250, R253; log 1 to log 4). -/
def State.reset : State := State.construct resetRegs Bus.plain 0

end Sys2Proof.Machine
end

