-- ==== Sys2Proof/Machine/Memory.lean ====
section
/-! DEFINITION. Reading and writing one byte of the store behind the bus, and its canonical form (20_memory.md R40, R50;
92_eei_decisions.md D14: a read returns the last byte written). -/
namespace Sys2Proof.Machine

open Sys2Proof

/-- The byte at an address; an unlisted one reads as `Config.unlistedByte` (log 2). -/
def Memory.read : Memory → Nat → Byte
  | [], _ => Config.unlistedByte
  | (k, v) :: rest, a => if k = a then v else Memory.read rest a

/-- The cells that hold `v` at `a`: one, or none where `v` is what an unlisted address reads as. -/
def Memory.cell (a : Nat) (v : Byte) : Memory :=
  if v = Config.unlistedByte then [] else [(a, v)]

/-- The store with the byte `v` at address `a`, in canonical form if it was. -/
def Memory.write : Memory → Nat → Byte → Memory
  | [], a, v => Memory.cell a v
  | (k, w) :: rest, a, v =>
    if a < k then Memory.cell a v ++ (k, w) :: rest
    else if a = k then Memory.cell a v ++ rest
    else (k, w) :: Memory.write rest a v

/-- The canonical form from address `lo` on: addresses strictly rising and below 65536, and no cell that holds what an
unlisted address reads as. -/
def Memory.wfFrom : Nat → Memory → Bool
  | _, [] => true
  | lo, (k, v) :: rest =>
    decide (lo ≤ k) && decide (k < 65536) && decide (v ≠ Config.unlistedByte) && Memory.wfFrom (k + 1) rest

/-- The canonical form, in which equal memories are equal data. -/
def Memory.wf (m : Memory) : Bool := Memory.wfFrom 0 m

end Sys2Proof.Machine
end

