-- ==== Sys2Proof/Machine/Bus.lean ====
section
/-! DEFINITION. How the bus answers one transaction (20_memory.md R41 to R45), from the data State holds of it: the host's
dictated answers first, then the map, then the store. The devices are those of the reference harness (60_exceptions.md R230
to R234). -/
namespace Sys2Proof.Machine

open Sys2Proof

/-- Whether an address lies in a region. -/
def Region.holds (r : Region) (a : Nat) : Bool := decide (r.first ≤ a) && decide (a ≤ r.last)

/-- The port at an address; none where it is plain memory. -/
def portAt : List Region → Nat → Option Port
  | [], _ => none
  | r :: rest, a => if r.holds a then some r.port else portAt rest a

/-- A read of the character input: the next character, or after the last one the end-of-input byte, or no answer (R232,
D21). -/
def Bus.readChar (b : Bus) : BusAnswer Byte × Bus :=
  match b.input with
  | c :: rest => (.ok c, { b with input := rest })
  | [] =>
    match b.eof with
    | some e => (.ok e, b)
    | none => (.silent, b)

/-- A read served by the map and the store (R43, R230 to R234). -/
def Bus.serveRead (b : Bus) (a : Word) : BusAnswer Byte × Bus :=
  match portAt b.map a.toNat with
  | none => (.ok (Memory.read b.cells a.toNat), b)
  | some .readOnly => (.ok (Memory.read b.cells a.toNat), b)
  | some (.rejects code) => (.err code, b)
  | some .exitStrobe => (.err .addressInvalid, b)
  | some .charInput => b.readChar
  | some .charOutput => (.err .addressInvalid, b)

/-- A write served by the map and the store (R43, R230 to R234). -/
def Bus.serveWrite (b : Bus) (a : Word) (v : Byte) : BusAnswer Unit × Bus :=
  match portAt b.map a.toNat with
  | none => (.ok (), { b with cells := Memory.write b.cells a.toNat v })
  | some .readOnly => (.err .addressInvalid, b)
  | some (.rejects code) => (.err code, b)
  | some .exitStrobe => (.runEnds, b)
  | some .charInput => (.err .addressInvalid, b)
  | some .charOutput => (.ok (), { b with output := b.output ++ [v] })

/-- The answer to a read transaction and the bus after it. A dictated answer is used up. -/
def Bus.answerRead (b : Bus) (a : Word) : BusAnswer Byte × Bus :=
  match b.answers with
  | [] => b.serveRead a
  | .served :: rest => { b with answers := rest }.serveRead a
  | .reply v :: rest => (.ok v, { b with answers := rest })
  | .reject code :: rest => (.err code, { b with answers := rest })
  | .silent :: rest => (.silent, { b with answers := rest })

/-- The answer to a write transaction and the bus after it. A dictated answer is used up. -/
def Bus.answerWrite (b : Bus) (a : Word) (v : Byte) : BusAnswer Unit × Bus :=
  match b.answers with
  | [] => b.serveWrite a v
  | .served :: rest => { b with answers := rest }.serveWrite a v
  | .reply _ :: rest => (.ok (), { b with answers := rest })
  | .reject code :: rest => (.err code, { b with answers := rest })
  | .silent :: rest => (.silent, { b with answers := rest })

end Sys2Proof.Machine
end

