-- ==== Sys2Proof/Machine/Ops.lean ====
section
/-! DEFINITION. The named operations every handler is written in (00_scope.md R8): reading and writing a register, one byte
transaction, the two-byte accesses, and ending a step with an error. -/
namespace Sys2Proof.Machine

open Sys2Proof

/-- What an operation that uses the bus comes to: a value and the state after it, or the end of the step. -/
inductive Reply (α : Type) where
  | ok (value : α) (s : State)
  | stop (why : Fault)
  deriving DecidableEq, Repr

/-- One operation after another; nothing runs after the end of the step (R8, R88). -/
def Reply.andThen {α β : Type} (r : Reply α) (f : α → State → Reply β) : Reply β :=
  match r with
  | .ok v s => f v s
  | .stop why => .stop why

/-- The end of a handler: its register writes follow once every transaction has answered `Ok` (R89), and the step
answers with the state they give; a stop ends the step with the state its transactions left (R215). -/
def Reply.finish {α : Type} (r : Reply α) (f : α → State → Host.Outcome State Fault Refusal) :
    Host.Outcome State Fault Refusal :=
  match r with
  | .ok v s => f v s
  | .stop why => .fault why

/-- `x[r]` (R8, R20). -/
def State.reg (s : State) (r : Reg) : Word := s.regs[r]

/-- `x[r] <- v` (R8, R20). No register is hard-wired. -/
def State.setReg (s : State) (r : Reg) (v : Word) : State := { s with regs := s.regs.set r v }

/-- `pc`, x15 (R26): P while a handler runs (R84). -/
def State.pc (s : State) : Word := s.reg Reg.pc

/-- `sp`, x13 (R25): S when a handler starts. -/
def State.sp (s : State) : Word := s.reg Reg.sp

/-- `ix`, x1 (R22). -/
def State.ix (s : State) : Word := s.reg Reg.ix

/-- `cr`, x2 (R23). -/
def State.cr (s : State) : Word := s.reg Reg.cr

/-- The byte of the store at an address, read without a transaction: the model's view of one byte of memory. -/
def State.byteAt (s : State) (a : Word) : Byte := Memory.read s.bus.cells a.toNat

/-- The step driver's two states are a function of pc (R33): halted-invalid at the sentinel. -/
def State.halted (s : State) : Bool := s.pc == Config.fetchSentinel

/-- `pc <- pc + 2`, modulo 2^16 (R28). -/
def State.advance (s : State) : State := s.setReg Reg.pc (s.pc + Config.twoBytes)

/-- `raise code`: the step ends, returning `Err(code)`. Nothing is saved, no cause is recorded, no mode changes and
control goes to no handler; what was done stays done (R8, R215, R218). -/
def raise (code : ErrorCode) (s : State) : Fault := .err code s

/-- The state from which a further step would run after a failed one: the core keeps no sticky fault state, and there is
no return instruction (R219, R220). -/
def resumeState (f : Fault) : State := f.left

/-- The end of a transaction: its answer is the operation's value, or it ends the step (R8, R44, R88, R216). -/
def deliver {α : Type} (answer : BusAnswer α) (s : State) : Reply α :=
  match answer with
  | .ok v => .ok v s
  | .err code => .stop (raise code s)
  | .silent => .stop (.stuck s)
  | .runEnds => .stop (.runEnded s)

/-- One bus read transaction, `MemRead(a, 1)` (R8, R41). -/
def busRead (a : Word) (s : State) : Reply Byte :=
  deliver (s.bus.answerRead a).1
    { s with bus := (s.bus.answerRead a).2, log := s.log ++ [.read s.ctx a (s.bus.answerRead a).1] }

/-- One bus write transaction, `MemWrite(a, 1, v)` (R8, R42). -/
def busWrite (a : Word) (v : Byte) (s : State) : Reply Unit :=
  deliver (s.bus.answerWrite a v).1
    { s with bus := (s.bus.answerWrite a v).2, log := s.log ++ [.write s.ctx a v (s.bus.answerWrite a v).1] }

/-- `MemRead(a, 2)`: the byte at `a`, then the byte at `a + 1` modulo 2^16, little-endian (R8, R46, R48, R49; D2, D3). -/
def memRead16 (a : Word) (s : State) : Reply Word :=
  (busRead a s).andThen fun lo s1 =>
    (busRead (a + 1) s1).andThen fun hi s2 => .ok (ofLittleEndian lo hi) s2

/-- `MemWrite(a, 2, v)`: the low byte at `a`, then the high byte at `a + 1` modulo 2^16 (R8, R46, R48, R49; D2, D3). -/
def memWrite16 (a : Word) (v : Word) (s : State) : Reply Unit :=
  (busWrite a (lowByte v) s).andThen fun _ s1 => busWrite (a + 1) (highByte v) s1

end Sys2Proof.Machine
end

