-- ==== Sys2Proof/Machine/Operands.lean ====
section
/-! DEFINITION. The operand forms: the zero-extended immediate of OR, the byte through the index register, the inline
16-bit operand, the stack slots, and the absolute 16-bit word (30_encoding.md R64, R65; 20_memory.md R52). -/
namespace Sys2Proof.Machine

open Sys2Proof

/-- `zext_16`: a byte extended to 16 bits with zeros (R8). -/
def zext16 (v : Byte) : Word := v.setWidth 16

/-- The low four bits of a register as a shift count, that is, the count modulo 16 (R125, R126; D4, log 11). -/
def shiftCount (b : Word) : Nat := (b.extractLsb' 0 4).toNat

/-- The address of the byte GM reads and SM writes: the index register (R22, R103, R106). -/
def indexAddress (s : State) : Word := s.ix

/-- The address of the inline operand: P, what pc holds when the handler starts (R64, R84). -/
def operandAddress (s : State) : Word := s.pc

/-- The address after the inline operand, P + 2 (R29). -/
def afterOperand (s : State) : Word := s.pc + Config.twoBytes

/-- The inline 16-bit operand at P and P+1 (R46, R64, R84). -/
def inlineOperand (s : State) : Reply Word := memRead16 (operandAddress s) s

/-- The address a push writes at: S, the first free byte above the top of the stack (R25). -/
def pushAddress (s : State) : Word := s.sp

/-- The stack pointer after a push, S + 2 (R25). -/
def spAfterPush (s : State) : Word := s.sp + Config.twoBytes

/-- The address a pop reads at, which is also the stack pointer after it: S - 2 (R25). -/
def popAddress (s : State) : Word := s.sp - Config.twoBytes

/-- The two writes of a push, at S and S + 1 (R25, R181). The stack pointer moves with the register writes. -/
def pushBytes (v : Word) (s : State) : Reply Unit := memWrite16 (pushAddress s) v s

/-- The two reads of a pop, at S - 2 and S - 1 (R25, R183). The stack pointer moves with the register writes. -/
def popBytes (s : State) : Reply Word := memRead16 (popAddress s) s

end Sys2Proof.Machine
end

