-- ==== Sys2Proof/Machine/Alu.lean ====
section
/-! DEFINITION. The meanings of the ALU operations (42_primary_alu.md). Every operand is unsigned, every result is taken
modulo 2^16 (R119), and both operands are read before the write (R89). Only DIV and MOD can fail. -/
namespace Sys2Proof.Machine

open Sys2Proof

/-- The shape of every ALU operation: `x[rA] <- f(x[rA], v)`, nothing else (R119). -/
def aluWrite (f : Word → Word → Word) (ra : Reg) (v : Word) (s : State) : Host.Outcome State Fault Refusal :=
  .next (s.setReg ra (f (s.reg ra) v))

/-- The shape of DIV and MOD: a zero divisor ends the step with ArithmeticFault and writes no register (R130, R131, R212;
D5). -/
def aluDivide (f : Word → Word → Word) (ra rb : Reg) (s : State) : Host.Outcome State Fault Refusal :=
  if s.reg rb = 0 then .fault (raise .arithmeticFault s) else aluWrite f ra (s.reg rb) s

/-- OR rA, imm8 (R120; C1). -/
def execOrImm (ra : Reg) (imm8 : Byte) (s : State) : Host.Outcome State Fault Refusal :=
  aluWrite (fun a b => a ||| b) ra (zext16 imm8) s

/-- ORR rA, rB (R121). -/
def execOrr (ra rb : Reg) (s : State) : Host.Outcome State Fault Refusal :=
  aluWrite (fun a b => a ||| b) ra (s.reg rb) s

/-- AND rA, rB (R122). -/
def execAnd (ra rb : Reg) (s : State) : Host.Outcome State Fault Refusal :=
  aluWrite (fun a b => a &&& b) ra (s.reg rb) s

/-- XOR rA, rB (R123). -/
def execXor (ra rb : Reg) (s : State) : Host.Outcome State Fault Refusal :=
  aluWrite (fun a b => a ^^^ b) ra (s.reg rb) s

/-- NOT rA (R124). -/
def execNot (ra : Reg) (s : State) : Host.Outcome State Fault Refusal :=
  .next (s.setReg ra (~~~ s.reg ra))

/-- SHL rA, rB: a logical shift, the count modulo 16 (R125; D4). -/
def execShl (ra rb : Reg) (s : State) : Host.Outcome State Fault Refusal :=
  aluWrite (fun a b => a <<< shiftCount b) ra (s.reg rb) s

/-- SHR rA, rB: a logical shift, the count modulo 16 (R126; D4). -/
def execShr (ra rb : Reg) (s : State) : Host.Outcome State Fault Refusal :=
  aluWrite (fun a b => a >>> shiftCount b) ra (s.reg rb) s

/-- ADD rA, rB (R127). -/
def execAdd (ra rb : Reg) (s : State) : Host.Outcome State Fault Refusal :=
  aluWrite (fun a b => a + b) ra (s.reg rb) s

/-- SUB rA, rB (R128). -/
def execSub (ra rb : Reg) (s : State) : Host.Outcome State Fault Refusal :=
  aluWrite (fun a b => a - b) ra (s.reg rb) s

/-- MUL rA, rB: the low 16 bits of the product (R129). -/
def execMul (ra rb : Reg) (s : State) : Host.Outcome State Fault Refusal :=
  aluWrite (fun a b => a * b) ra (s.reg rb) s

/-- DIV rA, rB: unsigned, truncating (R130; D5). -/
def execDiv (ra rb : Reg) (s : State) : Host.Outcome State Fault Refusal :=
  aluDivide (fun a b => BitVec.ofNat 16 (a.toNat / b.toNat)) ra rb s

/-- MOD rA, rB: the unsigned remainder (R131; D5). -/
def execMod (ra rb : Reg) (s : State) : Host.Outcome State Fault Refusal :=
  aluDivide (fun a b => BitVec.ofNat 16 (a.toNat % b.toNat)) ra rb s

end Sys2Proof.Machine
end

