-- ==== Sys2Proof/Machine/Flags.lean ====
section
/-! DEFINITION. The core has no flags (10_state.md R31). Its only condition state is the ordinary register `cr`, which a
comparison writes and a conditional jump reads (R23; 90_conflicts.md C5). -/
namespace Sys2Proof.Machine

open Sys2Proof

/-- What a comparison writes to `cr`: 0 for true, 1 for false (R23, R152 to R154). -/
def conditionWord (holds : Bool) : Word := if holds then 0 else 1

/-- Write the outcome of a comparison to `cr` (R23). -/
def State.setCondition (s : State) (holds : Bool) : State := s.setReg Reg.cr (conditionWord holds)

/-- A conditional jump is taken exactly when `cr` is 0; every other value is not taken (R23, R101, R156). -/
def State.taken (s : State) : Bool := s.cr == 0

end Sys2Proof.Machine
end

