-- ==== Sys2Proof/Machine/Extended.lean ====
section
/-! DEFINITION. The meanings of the extended group (43_extended.md). The state is the one after the base advance, so pc is
P. -/
namespace Sys2Proof.Machine

open Sys2Proof

/-- The shape of the comparisons: `cr` is written with 0 where `test x[rB] x[rC]` holds and with 1 where it does not
(R152 to R154). Both operands are read before `cr` is written. -/
def compareToCr (test : Nat → Nat → Bool) (rb rc : Reg) (s : State) : Host.Outcome State Fault Refusal :=
  .next (s.setCondition (test (s.reg rb).toNat (s.reg rc).toNat))

/-- No effect: pc stays P (R151, R161, R189). -/
def noEffect (s : State) : Host.Outcome State Fault Refusal := .next s

/-- NOP (R151). -/
def execNop (s : State) : Host.Outcome State Fault Refusal := noEffect s

/-- CMP_EQ rB, rC (R152). -/
def execCmpEq (rb rc : Reg) (s : State) : Host.Outcome State Fault Refusal :=
  compareToCr (fun b c => decide (b = c)) rb rc s

/-- CMP_GT rB, rC, unsigned (R153). -/
def execCmpGt (rb rc : Reg) (s : State) : Host.Outcome State Fault Refusal :=
  compareToCr (fun b c => decide (b > c)) rb rc s

/-- CMP_LT rB, rC, unsigned (R154). -/
def execCmpLt (rb rc : Reg) (s : State) : Host.Outcome State Fault Refusal :=
  compareToCr (fun b c => decide (b < c)) rb rc s

/-- LOAD_IMM rB, imm16: the register write, then the advance past the operand, so that into x15 both land (R155; D8). -/
def execLoadImm (rb : Reg) (s : State) : Host.Outcome State Fault Refusal :=
  (inlineOperand s).finish fun v s1 => .next (s1.setReg rb v).advance

/-- JMP_IMM addr16: the operand is read whether or not the jump is taken (R156; D9). -/
def execJmpImm (s : State) : Host.Outcome State Fault Refusal :=
  (inlineOperand s).finish fun t s1 => .next (s1.setReg Reg.pc (if s.taken then t else afterOperand s))

/-- COPY rB, rC (R157). -/
def execCopy (rb rc : Reg) (s : State) : Host.Outcome State Fault Refusal :=
  .next (s.setReg rb (s.reg rc))

/-- SWAP rB, rC: both read, then both written, rB first (R158). -/
def execSwap (rb rc : Reg) (s : State) : Host.Outcome State Fault Refusal :=
  .next ((s.setReg rb (s.reg rc)).setReg rc (s.reg rb))

/-- UJMP addr16 (R159). -/
def execUjmp (s : State) : Host.Outcome State Fault Refusal :=
  (inlineOperand s).finish fun t s1 => .next (s1.setReg Reg.pc t)

/-- The reserved extended words 0xA and 0xB: no effect, whatever the word's other bits (R71, R161). -/
def execReservedExtAB (s : State) : Host.Outcome State Fault Refusal := noEffect s

/-- The reserved extended words 0xC to 0xF: no effect, whatever the word's other bits (R71, R161). -/
def execReservedExtCF (s : State) : Host.Outcome State Fault Refusal := noEffect s

end Sys2Proof.Machine
end

