-- ==== Sys2Proof/Machine/Primary.lean ====
section
/-! DEFINITION. The meanings of JMP, GM and SM (41_primary_control_memory.md). The state is the one after the base
advance, so pc is P (40_step_driver.md R84). -/
namespace Sys2Proof.Machine

open Sys2Proof

/-- JMP rA (R101). -/
def execJmp (ra : Reg) (s : State) : Host.Outcome State Fault Refusal :=
  if s.taken then .next (s.setReg Reg.pc (s.reg ra)) else .next s

/-- GM rA (R103). -/
def execGm (ra : Reg) (s : State) : Host.Outcome State Fault Refusal :=
  (busRead (indexAddress s) s).finish fun v s1 => .next (s1.setReg ra (zext16 v))

/-- SM rA (R106). -/
def execSm (ra : Reg) (s : State) : Host.Outcome State Fault Refusal :=
  (busWrite (indexAddress s) (lowByte (s.reg ra)) s).finish fun _ s1 => .next s1

end Sys2Proof.Machine
end

