-- ==== Sys2Proof/Machine/Stack.lean ====
section
/-! DEFINITION. The meanings of the stack and memory sub-group (44_stack_memory.md). The state is the one after the base
advance, so pc is P, and sp is S. Register writes follow the last transaction, in each rule's order (40_step_driver.md R89;
D7, D8). -/
namespace Sys2Proof.Machine

open Sys2Proof

/-- PUSH_IMM imm16 (R181). -/
def execPushImm (s : State) : Host.Outcome State Fault Refusal :=
  ((inlineOperand s).andThen fun v s1 => pushBytes v s1).finish fun _ s2 =>
    .next ((s2.setReg Reg.pc (afterOperand s)).setReg Reg.sp (spAfterPush s))

/-- PUSH_REG rC (R182). -/
def execPushReg (rc : Reg) (s : State) : Host.Outcome State Fault Refusal :=
  (pushBytes (s.reg rc) s).finish fun _ s1 => .next (s1.setReg Reg.sp (spAfterPush s))

/-- POP_REG rC: sp is written before x[rC], so that into x13 the popped value stays (R183; C2, D8). -/
def execPopReg (rc : Reg) (s : State) : Host.Outcome State Fault Refusal :=
  (popBytes s).finish fun v s1 => .next ((s1.setReg Reg.sp (popAddress s)).setReg rc v)

/-- CALL_ADDR addr16: the push of the address after the operand, then the read of the target (R184; D7). -/
def execCallAddr (s : State) : Host.Outcome State Fault Refusal :=
  ((pushBytes (afterOperand s) s).andThen fun _ s1 => inlineOperand s1).finish fun t s2 =>
    .next ((s2.setReg Reg.pc t).setReg Reg.sp (spAfterPush s))

/-- CALL_REG rC: the push of P, then the jump to x[rC] as it was before (R185). -/
def execCallReg (rc : Reg) (s : State) : Host.Outcome State Fault Refusal :=
  (pushBytes s.pc s).finish fun _ s1 =>
    .next ((s1.setReg Reg.pc (s.reg rc)).setReg Reg.sp (spAfterPush s))

/-- RET (R186). -/
def execRet (s : State) : Host.Outcome State Fault Refusal :=
  (popBytes s).finish fun v s1 => .next ((s1.setReg Reg.sp (popAddress s)).setReg Reg.pc v)

/-- STORE_ADDR rC, addr16 (R187). -/
def execStoreAddr (rc : Reg) (s : State) : Host.Outcome State Fault Refusal :=
  ((inlineOperand s).andThen fun a s1 => memWrite16 a (s.reg rc) s1).finish fun _ s2 =>
    .next (s2.setReg Reg.pc (afterOperand s))

/-- LOAD_ADDR rC, addr16: the word at the operand's address; the register write, then the advance past the operand, so that
into x15 both land (R188; C3, D6, D8). -/
def execLoadAddr (rc : Reg) (s : State) : Host.Outcome State Fault Refusal :=
  ((inlineOperand s).andThen fun a s1 => memRead16 a s1).finish fun v s2 =>
    .next (s2.setReg rc v).advance

/-- The reserved stack words 0x8 to 0xF: no effect, whatever the word's other bits; sp is not touched (R71, R189). -/
def execReservedStack8F (s : State) : Host.Outcome State Fault Refusal := .next s

end Sys2Proof.Machine
end

