-- ==== Sys2Proof/Machine/Dispatch.lean ====
section
/-! DEFINITION. The dispatch: one arm for each instruction (40_step_driver.md R85). The state is the one after the base
advance (R84). -/
namespace Sys2Proof.Machine

open Sys2Proof

def exec (i : Instr) (s : State) : Host.Outcome State Fault Refusal :=
  match i with
  | .jmp ra => Sys2Proof.Machine.execJmp ra s
  | .gm ra => Sys2Proof.Machine.execGm ra s
  | .sm ra => Sys2Proof.Machine.execSm ra s
  | .orImm ra imm8 => Sys2Proof.Machine.execOrImm ra imm8 s
  | .orr ra rb => Sys2Proof.Machine.execOrr ra rb s
  | .and ra rb => Sys2Proof.Machine.execAnd ra rb s
  | .xor ra rb => Sys2Proof.Machine.execXor ra rb s
  | .not ra => Sys2Proof.Machine.execNot ra s
  | .shl ra rb => Sys2Proof.Machine.execShl ra rb s
  | .shr ra rb => Sys2Proof.Machine.execShr ra rb s
  | .add ra rb => Sys2Proof.Machine.execAdd ra rb s
  | .sub ra rb => Sys2Proof.Machine.execSub ra rb s
  | .mul ra rb => Sys2Proof.Machine.execMul ra rb s
  | .div ra rb => Sys2Proof.Machine.execDiv ra rb s
  | .mod ra rb => Sys2Proof.Machine.execMod ra rb s
  | .nop => Sys2Proof.Machine.execNop s
  | .cmpEq rb rc => Sys2Proof.Machine.execCmpEq rb rc s
  | .cmpGt rb rc => Sys2Proof.Machine.execCmpGt rb rc s
  | .cmpLt rb rc => Sys2Proof.Machine.execCmpLt rb rc s
  | .loadImm rb => Sys2Proof.Machine.execLoadImm rb s
  | .jmpImm => Sys2Proof.Machine.execJmpImm s
  | .copy rb rc => Sys2Proof.Machine.execCopy rb rc s
  | .swap rb rc => Sys2Proof.Machine.execSwap rb rc s
  | .ujmp => Sys2Proof.Machine.execUjmp s
  | .reservedExtAB _ => Sys2Proof.Machine.execReservedExtAB s
  | .reservedExtCF _ => Sys2Proof.Machine.execReservedExtCF s
  | .pushImm => Sys2Proof.Machine.execPushImm s
  | .pushReg rc => Sys2Proof.Machine.execPushReg rc s
  | .popReg rc => Sys2Proof.Machine.execPopReg rc s
  | .callAddr => Sys2Proof.Machine.execCallAddr s
  | .callReg rc => Sys2Proof.Machine.execCallReg rc s
  | .ret => Sys2Proof.Machine.execRet s
  | .storeAddr rc => Sys2Proof.Machine.execStoreAddr rc s
  | .loadAddr rc => Sys2Proof.Machine.execLoadAddr rc s
  | .reservedStack8F _ => Sys2Proof.Machine.execReservedStack8F s

end Sys2Proof.Machine
end

