-- ==== Sys2Proof/Machine/Fetch.lean ====
section
/-! DEFINITION. The step driver up to the dispatch (40_step_driver.md R81 to R84), and placing an instruction where the
next step fetches. -/
namespace Sys2Proof.Machine

open Sys2Proof

/-- The two fetch reads, at A and then at A + 1; an error leaves every register unchanged (R82). -/
def fetchWord (s : State) : Reply Word :=
  (busRead s.pc s).andThen fun b0 s1 =>
    (busRead (s.pc + 1) s1).andThen fun b1 s2 => .ok (wordOf b0 b1) s2

/-- The sentinel test, the fetch, the decoding and the base advance `pc <- A + 2` (R81 to R84): the instruction and the
state its handler starts in. -/
def fetchInstr (s : State) : Reply Instr :=
  if s.halted then .stop (raise .instructionInvalid s)
  else (fetchWord s).andThen fun w s1 => .ok (decodeWord w) s1.advance

/-- Store bytes one after another from an address on, modulo 2^16. -/
def storeBytes : List Byte → Word → Memory → Memory
  | [], _, m => m
  | v :: rest, a, m => storeBytes rest (a + 1) (Memory.write m a.toNat v)

/-- Whether a region touches one of the four bytes from an address on, modulo 2^16. -/
def Region.touches (r : Region) (a : Word) : Bool :=
  r.holds a.toNat || r.holds (a + 1).toNat || r.holds (a + 2).toNat || r.holds (a + 3).toNat

/-- The state with an instruction of the opcode table's numbering stored at pc, so that the next step fetches exactly it.
The fetch needs the four bytes to be plain memory and no dictated answer to come first, so the regions that touch them and
the dictated answers go; nothing else changes. At the sentinel no instruction can be fetched (R55). -/
def placeInstruction (nbits w : Nat) (s : State) : State :=
  { s with
    bus :=
      { s.bus with
        cells := storeBytes (tableBytes nbits w) s.pc s.bus.cells
        map := s.bus.map.filter fun r => !r.touches s.pc
        answers := [] } }

end Sys2Proof.Machine
end

