-- ==== Sys2Proof/Machine/Step.lean ====
section
/-! DEFINITION. One step (40_step_driver.md R80, R87), and an instruction placed where step fetches it. -/
namespace Sys2Proof.Machine

open Sys2Proof

/-- One step call: the sentinel test, the fetch, the decoding, the base advance, and the handler's result unchanged (R80 to
R87). `next` is `Ok(())`; a fault carries the error code and the state left (log 5). -/
def step (s : State) : Host.Outcome State Fault Refusal :=
  (fetchInstr s).finish exec

/-- The state with the instruction of bits `w` stored where step fetches its next instruction. The operand bytes after a
word that the table gives no bits are 0. -/
def State.withFetchWord (s : State) (nbits w : Nat) : State := placeInstruction nbits w s

end Sys2Proof.Machine
end

