-- ==== Sys2Proof/Machine/Harness.lean ====
section
/-! DEFINITION. The reference harness (60_exceptions.md R230 to R237) as a value of the bus: outside the core by 00_scope.md
R4(a), and no core rule depends on it (R230). Its devices are ports of Machine/Bus.lean; this file maps and loads them
(log 18). -/
namespace Sys2Proof.Machine

open Sys2Proof

/-- The harness's address map: the three devices at 0, 1 and 2 (R230), and the ROM part read-only unless it is writable
(parameter `rom_writable`, R234, D22). -/
def harnessMap (romBytes : Nat) (romWritable : Bool) : List Region :=
  [{ first := 0, last := 0, port := .exitStrobe },
   { first := 1, last := 1, port := .charInput },
   { first := 2, last := 2, port := .charOutput }] ++
  (if romWritable || romBytes == 0 then []
   else [{ first := Config.harnessRomBase, last := Config.harnessRomBase + romBytes - 1, port := .readOnly }])

/-- The harness's bus: the ROM file's byte `i` at address `3 + i` over what the RAM held before (parameter `ram_init`), and
the input still to be read with its end (parameter `eof_byte`) (R230 to R234, D21, D22). -/
def harnessBus (rom : List Byte) (romWritable : Bool) (ram : Memory) (input : List Byte) (eof : Option Byte) : Bus :=
  { cells := storeBytes rom (BitVec.ofNat 16 Config.harnessRomBase) ram
    map := harnessMap rom.length romWritable
    answers := []
    input := input
    eof := eof
    output := [] }

/-- The core as the harness starts it: pc at the first ROM byte, the other registers as the caller says (R237, R253). A ROM
longer than 65533 bytes is refused at load (D22). -/
def harnessStart (initRegs : Vector Word 16) (ctx : Nat) (rom : List Byte) (romWritable : Bool) (ram : Memory)
    (input : List Byte) (eof : Option Byte) : Except Refusal State :=
  if rom.length > Config.harnessRomLimit then .error (.romTooLong rom.length)
  else .ok (State.construct (initRegs.set 15 Config.entryPoint) (harnessBus rom romWritable ram input eof) ctx)

end Sys2Proof.Machine
end

