-- ==== Sys2Proof/Safety.lean ====
section
/-! DEFINITION. The terms in which statements speak of steps: the result of a step call and the state it leaves, a host's
run, the transactions an instruction makes (20_memory.md R52), what a step leaves unchanged, and the invariant. -/
namespace Sys2Proof.Machine

open Sys2Proof

/-- What the host sees of one step call (R80, R86): `Ok(())`, `Err(code)`, no end (R44), or the end of the run at the exit
strobe (R231). `refused` is the host's outcome for an instruction without a meaning; no step gives it. -/
inductive StepResult where
  | ok
  | err (code : ErrorCode)
  | unfinished
  | runEnded
  | refused
  deriving DecidableEq, Repr

/-- The result of a step that stops. -/
def Fault.result : Fault → StepResult
  | .err code _ => .err code
  | .stuck _ => .unfinished
  | .runEnded _ => .runEnded

/-- One step call as the host sees it: the result, and the state it leaves, whatever the result (R86, R90). -/
def stepCall (s : State) : StepResult × State :=
  match step s with
  | .next t => (.ok, t)
  | .fault f => (f.result, f.left)
  | .refused _ => (.refused, s)

/-- A host's run of at most `n` step calls that treats any failed step as fatal (R219, R236, D12). That the limit `n` counts
every step call, a failing one included, is the model's choice where D23 leaves it open (DESIGN CHOICE, log 18). -/
def runCalls : Nat → State → StepResult × State
  | 0, s => (.ok, s)
  | n + 1, s =>
    match stepCall s with
    | (.ok, t) => runCalls n t
    | (r, t) => (r, t)

/-- How the harness's loop ends under its instruction limit, the open parameter `Option Nat` of R6, R235 and D23. With a limit
it is the run of that many step calls. Without one, a run ends where some number of step calls ends in a failed step, and a
run that meets none has no end. That reading of `none` as a relation, where a function cannot give it, is the model's choice
(DESIGN CHOICE, log 18). -/
def runEndsWith (limit : Option Nat) (s : State) (r : StepResult × State) : Prop :=
  match limit with
  | some n => runCalls n s = r
  | none => r.1 ≠ .ok ∧ ∃ n, runCalls n s = r

/-- Neither the fetch nor a transaction of the step failed and the state can step on: what a safe step is. -/
def safeStep (s : State) : Bool := (stepCall s).1 == .ok

/-- One transaction without its answer. -/
inductive Access where
  | read (a : Word)
  | write (a : Word)
  deriving DecidableEq, Repr

/-- The access a transaction makes. -/
def Transaction.access : Transaction → Access
  | .read _ a _ => .read a
  | .write _ a _ _ => .write a

/-- The context handle a transaction carries. -/
def Transaction.handle : Transaction → Nat
  | .read ctx _ _ => ctx
  | .write ctx _ _ _ => ctx

/-- What an answer of the bus makes of the step: it goes on, or it ends with the answer's own code, with no end, or with the
run (R44, R215, R216, R231). -/
def BusAnswer.result {α : Type} : BusAnswer α → StepResult
  | .ok _ => .ok
  | .err code => .err code
  | .silent => .unfinished
  | .runEnds => .runEnded

/-- What a transaction's answer makes of the step. -/
def Transaction.result : Transaction → StepResult
  | .read _ _ answer => answer.result
  | .write _ _ _ answer => answer.result

/-- Whether a transaction was answered `Ok`. -/
def Transaction.succeeded (x : Transaction) : Bool := x.result == .ok

/-- The 16-bit value of the store at an address, low byte first (R46). -/
def State.wordAt (s : State) (a : Word) : Word := ofLittleEndian (s.byteAt a) (s.byteAt (a + 1))

/-- The transactions of an instruction after the fetch, in order: the table of R52, the data address of STORE_ADDR and
LOAD_ADDR being the word of the store at P. `s` is the state after the base advance. -/
def tableAccesses (i : Instr) (s : State) : List Access :=
  match i with
  | .jmp _ | .orImm _ _ | .orr _ _ | .and _ _ | .xor _ _ | .not _ | .shl _ _ | .shr _ _ => []
  | .add _ _ | .sub _ _ | .mul _ _ | .div _ _ | .mod _ _ | .nop | .cmpEq _ _ | .cmpGt _ _ | .cmpLt _ _ => []
  | .copy _ _ | .swap _ _ | .reservedExtAB _ | .reservedExtCF _ | .reservedStack8F _ => []
  | .gm _ => [.read s.ix]
  | .sm _ => [.write s.ix]
  | .loadImm _ | .jmpImm | .ujmp => [.read s.pc, .read (s.pc + 1)]
  | .pushImm => [.read s.pc, .read (s.pc + 1), .write s.sp, .write (s.sp + 1)]
  | .pushReg _ | .callReg _ => [.write s.sp, .write (s.sp + 1)]
  | .popReg _ | .ret => [.read (s.sp - 2), .read (s.sp - 1)]
  | .callAddr => [.write s.sp, .write (s.sp + 1), .read s.pc, .read (s.pc + 1)]
  | .storeAddr _ =>
    [.read s.pc, .read (s.pc + 1), .write (s.wordAt s.pc), .write (s.wordAt s.pc + 1)]
  | .loadAddr _ =>
    [.read s.pc, .read (s.pc + 1), .read (s.wordAt s.pc), .read (s.wordAt s.pc + 1)]

/-- The bus's map and store answer the next transaction: nothing else is dictated for it (log 1). -/
def State.served (s : State) : Prop := s.bus.answers = [] ∨ ∃ rest, s.bus.answers = .served :: rest

/-- The bus answers the coming transactions at an address as a plain memory: nothing is dictated and no region of the map
holds the address (D14). -/
def State.plainAt (s : State) (a : Word) : Prop :=
  s.bus.answers = [] ∧ portAt s.bus.map a.toNat = none

/-- The bus is a plain memory over the whole space (D14). -/
def State.plain (s : State) : Prop := s.bus.answers = [] ∧ s.bus.map = []

/-- No transaction happened: the bus, the context handle and the record of transactions are as before, and so is every
byte of memory. -/
def noTransaction (s t : State) : Prop :=
  t.bus = s.bus ∧ t.ctx = s.ctx ∧ t.log = s.log ∧ ∀ a : Word, t.byteAt a = s.byteAt a

/-- `t` has the bus, the context handle and the record of transactions that `s'` has. -/
def sameBus (s' t : State) : Prop := t.bus = s'.bus ∧ t.ctx = s'.ctx ∧ t.log = s'.log

/-- Every byte of memory reads as before. -/
def memoryKept (s t : State) : Prop := ∀ a : Word, t.byteAt a = s.byteAt a

/-- Every byte of memory reads as before, except the two from `a` on, modulo 2^16. -/
def memoryKeptButWord (a : Word) (s t : State) : Prop :=
  ∀ b : Word, b ≠ a → b ≠ a + 1 → t.byteAt b = s.byteAt b

/-- Two reads that the bus answers, the lower address first: `lo` at `a`, `hi` at `a + 1`, and the state after both (R48,
R49). -/
def readsPair (a : Word) (s : State) (lo hi : Byte) (s' : State) : Prop :=
  ∃ s1, busRead a s = .ok lo s1 ∧ busRead (a + 1) s1 = .ok hi s'

/-- One of the two reads stops the step. -/
def readsPairStops (a : Word) (s : State) (why : Fault) : Prop :=
  busRead a s = .stop why ∨ ∃ lo s1, busRead a s = .ok lo s1 ∧ busRead (a + 1) s1 = .stop why

/-- Two writes that the bus answers, the lower address first: `lo` at `a`, `hi` at `a + 1`, and the state after both (R48,
R49). -/
def writesPair (a : Word) (lo hi : Byte) (s s' : State) : Prop :=
  ∃ s1, busWrite a lo s = .ok () s1 ∧ busWrite (a + 1) hi s1 = .ok () s'

/-- One of the two writes stops the step. -/
def writesPairStops (a : Word) (lo hi : Byte) (s : State) (why : Fault) : Prop :=
  busWrite a lo s = .stop why ∨ ∃ s1, busWrite a lo s = .ok () s1 ∧ busWrite (a + 1) hi s1 = .stop why

/-- The bus of `t` is that of `s` but for the store's bytes, and the context handle is the same: no dictated answer was used
up and no device changed. -/
def onlyStoreChanged (s t : State) : Prop := t.ctx = s.ctx ∧ t.bus = { s.bus with cells := t.bus.cells }

/-- The state a step or a handler leaves, whatever its outcome. -/
def stateLeft : Host.Outcome State Fault Refusal → Option State
  | .next t => some t
  | .fault w => some w.left
  | .refused _ => none

/-- The handler stopped with this reason: the step's fault is the reason a transaction gave, and the registers are those
the handler started with, pc at P (R89, R90, R215). -/
def handlerStops (i : Instr) (s : State) (why : Fault) : Prop :=
  exec i s = .fault why ∧ why.left.regs = s.regs

/-- The invariant: the store is in canonical form, and every transaction so far carried the context handle unchanged (R41).
-/
def State.Inv (s : State) : Prop :=
  Memory.wf s.bus.cells = true ∧ ∀ x ∈ s.log, x.handle = s.ctx

end Sys2Proof.Machine
end

