-- ==== Sys2Proof/Certificates/Slice0/Obligations.lean ====
section
/-! DEFINITION. The statements. Where a statement rests on a decision of the spec's own (92_eei_decisions.md D<n>) or on a
choice of the model (notes/assumptions), its docstring says so. A handler's state is the one after the base advance: pc is
P, sp is S. `Reg.pc` is x15, `Reg.sp` x13, `Reg.ix` x1, `Reg.cr` x2. -/

open Sys2Proof Sys2Proof.Machine

/-! ## Encoding -/

/-- Decoding the word of a well-formed instruction gives the instruction back, with every operand at every value. The
encoder's zeros in unread fields are log 19. -/
def Obligations.DecodeOfEncodeIsTheInstruction : Prop :=
  ∀ i : Instr, i.wellFormed = true → decodeWord (encode i) = i

/-- Every word decodes to a well-formed instruction, and encoding that gives the word back with the bits the instruction
does not read cleared (R65; log 19 for the zeros). -/
def Obligations.EncodeOfDecodeClearsUnreadBits : Prop :=
  ∀ w : Word, (decodeWord w).wellFormed = true ∧ encode (decodeWord w) = w &&& (decodeWord w).readMask

/-- The opcode map: every word of four nibbles goes to the handler of its selectors, the reserved values, which have
no effect, included (R68, R69, R70). -/
def Obligations.OpcodeMapSelectsTheHandler : Prop :=
  ∀ a b c : Nibble,
    decodeWord (0x1#4 ++ a ++ b ++ c) = .jmp (regOf a) ∧
    decodeWord (0x2#4 ++ a ++ b ++ c) = .gm (regOf a) ∧
    decodeWord (0x3#4 ++ a ++ b ++ c) = .sm (regOf a) ∧
    decodeWord (0x4#4 ++ a ++ b ++ c) = .orImm (regOf a) (b ++ c) ∧
    decodeWord (0x5#4 ++ a ++ b ++ c) = .orr (regOf a) (regOf b) ∧
    decodeWord (0x6#4 ++ a ++ b ++ c) = .and (regOf a) (regOf b) ∧
    decodeWord (0x7#4 ++ a ++ b ++ c) = .xor (regOf a) (regOf b) ∧
    decodeWord (0x8#4 ++ a ++ b ++ c) = .not (regOf a) ∧
    decodeWord (0x9#4 ++ a ++ b ++ c) = .shl (regOf a) (regOf b) ∧
    decodeWord (0xA#4 ++ a ++ b ++ c) = .shr (regOf a) (regOf b) ∧
    decodeWord (0xB#4 ++ a ++ b ++ c) = .add (regOf a) (regOf b) ∧
    decodeWord (0xC#4 ++ a ++ b ++ c) = .sub (regOf a) (regOf b) ∧
    decodeWord (0xD#4 ++ a ++ b ++ c) = .mul (regOf a) (regOf b) ∧
    decodeWord (0xE#4 ++ a ++ b ++ c) = .div (regOf a) (regOf b) ∧
    decodeWord (0xF#4 ++ a ++ b ++ c) = .mod (regOf a) (regOf b) ∧
    decodeWord (0x0#4 ++ 0x0#4 ++ b ++ c) = .nop ∧
    decodeWord (0x0#4 ++ 0x1#4 ++ b ++ c) = .cmpEq (regOf b) (regOf c) ∧
    decodeWord (0x0#4 ++ 0x2#4 ++ b ++ c) = .cmpGt (regOf b) (regOf c) ∧
    decodeWord (0x0#4 ++ 0x3#4 ++ b ++ c) = .cmpLt (regOf b) (regOf c) ∧
    decodeWord (0x0#4 ++ 0x4#4 ++ b ++ c) = .loadImm (regOf b) ∧
    decodeWord (0x0#4 ++ 0x5#4 ++ b ++ c) = .jmpImm ∧
    decodeWord (0x0#4 ++ 0x6#4 ++ b ++ c) = .copy (regOf b) (regOf c) ∧
    decodeWord (0x0#4 ++ 0x7#4 ++ b ++ c) = .swap (regOf b) (regOf c) ∧
    decodeWord (0x0#4 ++ 0x8#4 ++ b ++ c) = .ujmp ∧
    (a = 0xA ∨ a = 0xB → decodeWord (0x0#4 ++ a ++ b ++ c) = .reservedExtAB a) ∧
    (a = 0xC ∨ a = 0xD ∨ a = 0xE ∨ a = 0xF → decodeWord (0x0#4 ++ a ++ b ++ c) = .reservedExtCF a) ∧
    decodeWord (0x0#4 ++ 0x9#4 ++ 0x0#4 ++ c) = .pushImm ∧
    decodeWord (0x0#4 ++ 0x9#4 ++ 0x1#4 ++ c) = .pushReg (regOf c) ∧
    decodeWord (0x0#4 ++ 0x9#4 ++ 0x2#4 ++ c) = .popReg (regOf c) ∧
    decodeWord (0x0#4 ++ 0x9#4 ++ 0x3#4 ++ c) = .callAddr ∧
    decodeWord (0x0#4 ++ 0x9#4 ++ 0x4#4 ++ c) = .callReg (regOf c) ∧
    decodeWord (0x0#4 ++ 0x9#4 ++ 0x5#4 ++ c) = .ret ∧
    decodeWord (0x0#4 ++ 0x9#4 ++ 0x6#4 ++ c) = .storeAddr (regOf c) ∧
    decodeWord (0x0#4 ++ 0x9#4 ++ 0x7#4 ++ c) = .loadAddr (regOf c) ∧
    (0x8#4 ≤ b → decodeWord (0x0#4 ++ 0x9#4 ++ b ++ c) = .reservedStack8F b) ∧
    ∀ s : State, exec (.reservedExtAB a) s = .next s ∧ exec (.reservedExtCF a) s = .next s ∧
      exec (.reservedStack8F b) s = .next s

/-- Every one of the 65536 words belongs to exactly one row of the opcode table, the row of the instruction it decodes to
(R63). -/
def Obligations.EveryWordIsOneRowOfTheTable : Prop :=
  ∀ w : Word, ∃ row ∈ opcodeTable,
    row.covers w = true ∧ row.mnemonic = (decodeWord w).mnemonic ∧
    ∀ other ∈ opcodeTable, other.covers w = true → other = row

/-- The length told from the word alone is the length of the instruction it decodes to. -/
def Obligations.LengthIsToldFromTheWord : Prop :=
  ∀ w : Word, wordLength w = (decodeWord w).length

/-- Words written out in the spec decode to their instructions: ADD r3, r4; LOAD_IMM r3; POP_REG r6; OR r1, 0xFF; JMP r5;
SM r15; CMP_LT r3, r4; STORE_ADDR r4; RET; and three reserved words. -/
def Obligations.WordsOfTheSpecDecode : Prop :=
  decodeWord 0xB340 = .add 3 4 ∧ decodeWord 0x0430 = .loadImm 3 ∧ decodeWord 0x0926 = .popReg 6 ∧
  decodeWord 0x41FF = .orImm 1 0xFF ∧ decodeWord 0x1500 = .jmp 5 ∧ decodeWord 0x3F00 = .sm 15 ∧
  decodeWord 0x0334 = .cmpLt 3 4 ∧ decodeWord 0x0964 = .storeAddr 4 ∧ decodeWord 0x0950 = .ret ∧
  decodeWord 0x0A00 = .reservedExtAB 0xA ∧ decodeWord 0x0FFF = .reservedExtCF 0xF ∧
  decodeWord 0x09F0 = .reservedStack8F 0xF

/-! ## The step -/

/-- When the bytes at pc can be read and pc is not the sentinel, step is exec of the instruction they decode to, at the
state after the two reads with pc advanced by 2, every other register as before. Which byte is first and the order of the
reads are the spec's decisions D1 and D2 (log 9, log 10). -/
def Obligations.StepRunsTheDecodedInstruction : Prop :=
  ∀ (s s2 : State) (b0 b1 : Byte), s.pc ≠ 0xFFFF → readsPair s.pc s b0 b1 s2 →
    (decodeWord (b0 ++ b1)).wellFormed = true ∧
    ∃ u, step s = exec (decodeWord (b0 ++ b1)) u ∧
      (∀ r, u.reg r = if r = Reg.pc then s.pc + 2 else s.reg r) ∧ sameBus s2 u ∧ memoryKept s u

/-- A step that starts with pc at the sentinel returns InstructionInvalid and changes nothing, however often (R81). -/
def Obligations.SentinelStepChangesNothing : Prop :=
  ∀ (s : State) (n : Nat), s.pc = 0xFFFF →
    step s = .fault (.err .instructionInvalid s) ∧ stepCall s = (.err .instructionInvalid, s) ∧
    runCalls (n + 1) s = (.err .instructionInvalid, s)

/-- A fetch read that fails ends the step with every register, pc included, and every byte of memory unchanged; a first
read that fails is the step's only transaction. The order of the two reads is the spec's decision D2 (log 10). -/
def Obligations.FetchFailureChangesNoRegister : Prop :=
  ∀ (s : State) (f : Fault), s.pc ≠ 0xFFFF → readsPairStops s.pc s f →
    step s = .fault f ∧ f.left.regs = s.regs ∧ memoryKept s f.left ∧
    (busRead s.pc s = .stop f → f.left.log.length = s.log.length + 1)

/-- A handler that stops leaves the registers it started with, pc at P. It stops with ArithmeticFault, with the state
untouched, exactly at DIV or MOD with a zero divisor; otherwise its last transaction is the only one not answered Ok
(R89, R90: the spec's decision D7, log 14). -/
def Obligations.StoppedHandlerKeepsTheRegisters : Prop :=
  ∀ (i : Instr) (s : State) (f : Fault), exec i s = .fault f →
    f.left.regs = s.regs ∧ f.left.ctx = s.ctx ∧
    ((f = .err .arithmeticFault s ∧ ∃ ra rb, (i = .div ra rb ∨ i = .mod ra rb) ∧ s.reg rb = 0) ∨
     ∃ ts x, f.left.log = s.log ++ ts ++ [x] ∧ (∀ y ∈ ts, y.succeeded = true) ∧ x.succeeded = false)

/-- No word is an illegal instruction: no handler and no step is ever refused (R63, R71). -/
def Obligations.NothingIsRefused : Prop :=
  ∀ (i : Instr) (s : State) (r : Refusal), exec i s ≠ .refused r ∧ step s ≠ .refused r

/-- On a plain memory a step answers Ok, and the bus is a plain memory again, unless pc is the sentinel or the fetched word is
DIV or MOD with a zero divisor; then it returns the one error for that, the bus still plain. A plain memory is the instance
of the spec's decision D14 (log 1), the zero divisor its decision D5 (log 12). -/
def Obligations.PlainMemoryStepsFailOnlyAsStated : Prop :=
  ∀ s : State, s.plain →
    (∃ t, step s = .next t ∧ t.plain) ∨
    (s.pc = 0xFFFF ∧ step s = .fault (.err .instructionInvalid s)) ∨
    ∃ ra rb u, (decodeWord (s.byteAt s.pc ++ s.byteAt (s.pc + 1)) = .div ra rb ∨
        decodeWord (s.byteAt s.pc ++ s.byteAt (s.pc + 1)) = .mod ra rb) ∧
      u.reg rb = 0 ∧ (∀ r, u.reg r = if r = Reg.pc then s.pc + 2 else s.reg r) ∧ u.plain ∧
      step s = .fault (.err .arithmeticFault u)

/-- A step issues at most six transactions, each with the context handle, and goes on to the next only after `Ok`: the
record grows by them and all but the last were answered `Ok`. -/
def Obligations.StepIssuesAtMostSixTransactions : Prop :=
  ∀ s : State, ∃ ts, (stepCall s).2.log = s.log ++ ts ∧ ts.length ≤ 6 ∧
    (∀ x ∈ ts, x.handle = s.ctx) ∧ (∀ x ∈ ts.dropLast, x.succeeded = true) ∧
    ((stepCall s).1 = .ok → ∀ x ∈ ts, x.succeeded = true)

/-- On a plain memory an instruction that completes has made exactly the transactions of the spec's table, in its order. The
table is the spec's derivation and rests on its decisions D2, D3 and D7 (log 10, log 14). -/
def Obligations.TransactionsFollowTheTable : Prop :=
  ∀ (i : Instr) (s t : State), s.plain → exec i s = .next t →
    ∃ ts, t.log = s.log ++ ts ∧ ts.map Transaction.access = tableAccesses i s

/-! ## Register instructions: the word, the result, and the frame -/

/-- JMP (R101). A target of 0xFFFF makes the next step InstructionInvalid. -/
def Obligations.JmpIsTakenExactlyOnZero : Prop :=
  (∀ a b c : Nibble, decodeWord (0x1#4 ++ a ++ b ++ c) = .jmp (regOf a)) ∧
  ∀ (ra : Reg) (s : State), (Instr.jmp ra).length = 2 ∧
    ∃ t, exec (.jmp ra) s = .next t ∧
      (∀ r, t.reg r = if r = Reg.pc ∧ s.cr = 0 then s.reg ra else s.reg r) ∧ noTransaction s t ∧
      (t.pc = 0xFFFF → step t = .fault (.err .instructionInvalid t))

/-- OR with its eight-bit immediate (R120). -/
def Obligations.OrImmediateSetsLowBits : Prop :=
  (∀ (a : Nibble) (v : Byte), decodeWord (0x4#4 ++ a ++ v) = .orImm (regOf a) v) ∧
  ∀ (ra : Reg) (v : Byte) (s : State), (Instr.orImm ra v).length = 2 ∧
    ∃ t, exec (.orImm ra v) s = .next t ∧
      (∀ r, t.reg r = if r = ra then s.reg ra ||| (0#8 ++ v) else s.reg r) ∧ noTransaction s t

/-- ORR, AND, XOR and NOT (R121 to R124). -/
def Obligations.LogicOperations : Prop :=
  (∀ a b c : Nibble,
    decodeWord (0x5#4 ++ a ++ b ++ c) = .orr (regOf a) (regOf b) ∧
    decodeWord (0x6#4 ++ a ++ b ++ c) = .and (regOf a) (regOf b) ∧
    decodeWord (0x7#4 ++ a ++ b ++ c) = .xor (regOf a) (regOf b) ∧
    decodeWord (0x8#4 ++ a ++ b ++ c) = .not (regOf a)) ∧
  ∀ (ra rb : Reg) (s : State),
    ((Instr.orr ra rb).length = 2 ∧ (Instr.and ra rb).length = 2 ∧ (Instr.xor ra rb).length = 2 ∧
      (Instr.not ra).length = 2) ∧
    (∃ t, exec (.orr ra rb) s = .next t ∧
      (∀ r, t.reg r = if r = ra then s.reg ra ||| s.reg rb else s.reg r) ∧ noTransaction s t) ∧
    (∃ t, exec (.and ra rb) s = .next t ∧
      (∀ r, t.reg r = if r = ra then s.reg ra &&& s.reg rb else s.reg r) ∧ noTransaction s t) ∧
    (∃ t, exec (.xor ra rb) s = .next t ∧
      (∀ r, t.reg r = if r = ra then s.reg ra ^^^ s.reg rb else s.reg r) ∧ noTransaction s t) ∧
    (∃ t, exec (.not ra) s = .next t ∧
      (∀ r, t.reg r = if r = ra then ~~~ s.reg ra else s.reg r) ∧ noTransaction s t)

/-- SHL and SHR. The count modulo 16 is the spec's decision D4 (log 11). -/
def Obligations.ShiftsTakeTheCountModuloSixteen : Prop :=
  ∀ (ra rb : Reg) (s : State),
    (∃ t, exec (.shl ra rb) s = .next t ∧
      (∀ r, t.reg r = if r = ra then s.reg ra <<< ((s.reg rb).toNat % 16) else s.reg r) ∧ noTransaction s t) ∧
    (∃ t, exec (.shr ra rb) s = .next t ∧
      (∀ r, t.reg r = if r = ra then s.reg ra >>> ((s.reg rb).toNat % 16) else s.reg r) ∧ noTransaction s t)

/-- ADD, SUB and MUL, modulo 2^16 (R127 to R129). -/
def Obligations.ArithmeticWraps : Prop :=
  (∀ a b c : Nibble,
    decodeWord (0xB#4 ++ a ++ b ++ c) = .add (regOf a) (regOf b) ∧
    decodeWord (0xC#4 ++ a ++ b ++ c) = .sub (regOf a) (regOf b) ∧
    decodeWord (0xD#4 ++ a ++ b ++ c) = .mul (regOf a) (regOf b)) ∧
  ∀ (ra rb : Reg) (s : State),
    ((Instr.add ra rb).length = 2 ∧ (Instr.sub ra rb).length = 2 ∧ (Instr.mul ra rb).length = 2) ∧
    (∃ t, exec (.add ra rb) s = .next t ∧ noTransaction s t ∧
      (t.reg ra).toNat = ((s.reg ra).toNat + (s.reg rb).toNat) % 65536 ∧ ∀ r, r ≠ ra → t.reg r = s.reg r) ∧
    (∃ t, exec (.sub ra rb) s = .next t ∧ noTransaction s t ∧
      (t.reg ra).toNat = ((s.reg ra).toNat + (65536 - (s.reg rb).toNat)) % 65536 ∧
      ∀ r, r ≠ ra → t.reg r = s.reg r) ∧
    (∃ t, exec (.mul ra rb) s = .next t ∧ noTransaction s t ∧
      (t.reg ra).toNat = ((s.reg ra).toNat * (s.reg rb).toNat) % 65536 ∧ ∀ r, r ≠ ra → t.reg r = s.reg r)

/-- DIV and MOD: ArithmeticFault and nothing written on a zero divisor, otherwise the unsigned quotient and remainder. The
state on a zero divisor and the rounding are the spec's decision D5 (log 12). -/
def Obligations.DivisionAndRemainder : Prop :=
  ∀ (ra rb : Reg) (s : State),
    (s.reg rb = 0 →
      exec (.div ra rb) s = .fault (.err .arithmeticFault s) ∧
      exec (.mod ra rb) s = .fault (.err .arithmeticFault s)) ∧
    (s.reg rb ≠ 0 →
      (∃ t, exec (.div ra rb) s = .next t ∧
        (∀ r, t.reg r = if r = ra then s.reg ra / s.reg rb else s.reg r) ∧ noTransaction s t) ∧
      (∃ t, exec (.mod ra rb) s = .next t ∧
        (∀ r, t.reg r = if r = ra then s.reg ra % s.reg rb else s.reg r) ∧ noTransaction s t))

/-- For a divisor that is not 0, the quotient of DIV and the remainder of MOD recompose the dividend exactly, and the
remainder is below the divisor. It rests on the spec's decision D5 (log 12). -/
def Obligations.QuotientAndRemainderRecompose : Prop :=
  ∀ (ra rb : Reg) (s : State), s.reg rb ≠ 0 →
    ∃ t u, exec (.div ra rb) s = .next t ∧ exec (.mod ra rb) s = .next u ∧
      (s.reg ra).toNat = (t.reg ra).toNat * (s.reg rb).toNat + (u.reg ra).toNat ∧
      (u.reg ra).toNat < (s.reg rb).toNat

/-- NOP and the reserved words change nothing (R161, R189; NOP is R151). -/
def Obligations.NopAndReservedWordsChangeNothing : Prop :=
  (∀ b c : Nibble, decodeWord (0x0#4 ++ 0x0#4 ++ b ++ c) = .nop) ∧
  (∀ a b c : Nibble,
    (a = 0xA ∨ a = 0xB → decodeWord (0x0#4 ++ a ++ b ++ c) = .reservedExtAB a) ∧
    (0xC#4 ≤ a → decodeWord (0x0#4 ++ a ++ b ++ c) = .reservedExtCF a)) ∧
  (∀ b c : Nibble, 0x8#4 ≤ b → decodeWord (0x0#4 ++ 0x9#4 ++ b ++ c) = .reservedStack8F b) ∧
  ∀ (n : Nibble) (s : State),
    (Instr.nop.length = 2 ∧ (Instr.reservedExtAB n).length = 2 ∧ (Instr.reservedExtCF n).length = 2 ∧
      (Instr.reservedStack8F n).length = 2) ∧
    exec .nop s = .next s ∧ exec (.reservedExtAB n) s = .next s ∧ exec (.reservedExtCF n) s = .next s ∧
    exec (.reservedStack8F n) s = .next s

/-- CMP_EQ and CMP_LT write cr, with exactly 0 or 1, and nothing else (R152, R154). -/
def Obligations.CompareEqualAndLess : Prop :=
  (∀ b c : Nibble,
    decodeWord (0x0#4 ++ 0x1#4 ++ b ++ c) = .cmpEq (regOf b) (regOf c) ∧
    decodeWord (0x0#4 ++ 0x3#4 ++ b ++ c) = .cmpLt (regOf b) (regOf c)) ∧
  ∀ (rb rc : Reg) (s : State),
    ((Instr.cmpEq rb rc).length = 2 ∧ (Instr.cmpLt rb rc).length = 2) ∧
    (∃ t, exec (.cmpEq rb rc) s = .next t ∧
      (∀ r, t.reg r = if r = Reg.cr then (if s.reg rb = s.reg rc then 0 else 1) else s.reg r) ∧
      noTransaction s t) ∧
    (∃ t, exec (.cmpLt rb rc) s = .next t ∧
      (∀ r, t.reg r =
        if r = Reg.cr then (if (s.reg rb).toNat < (s.reg rc).toNat then 0 else 1) else s.reg r) ∧
      noTransaction s t)

/-- CMP_GT writes cr and nothing else. That it compares unsigned is marked by the spec as its own inference. -/
def Obligations.CompareGreaterIsUnsigned : Prop :=
  ∀ (rb rc : Reg) (s : State),
    ∃ t, exec (.cmpGt rb rc) s = .next t ∧
      (∀ r, t.reg r =
        if r = Reg.cr then (if (s.reg rb).toNat > (s.reg rc).toNat then 0 else 1) else s.reg r) ∧
      noTransaction s t

/-- COPY and SWAP (R157, R158). -/
def Obligations.CopyAndSwap : Prop :=
  (∀ b c : Nibble,
    decodeWord (0x0#4 ++ 0x6#4 ++ b ++ c) = .copy (regOf b) (regOf c) ∧
    decodeWord (0x0#4 ++ 0x7#4 ++ b ++ c) = .swap (regOf b) (regOf c)) ∧
  ∀ (rb rc : Reg) (s : State),
    ((Instr.copy rb rc).length = 2 ∧ (Instr.swap rb rc).length = 2) ∧
    (∃ t, exec (.copy rb rc) s = .next t ∧
      (∀ r, t.reg r = if r = rb then s.reg rc else s.reg r) ∧ noTransaction s t) ∧
    (∃ t, exec (.swap rb rc) s = .next t ∧
      (∀ r, t.reg r = if r = rc then s.reg rb else if r = rb then s.reg rc else s.reg r) ∧ noTransaction s t)

/-! ## Instructions that use the bus, on any bus -/

/-- GM. The zero extension is marked by the spec as its own inference. -/
def Obligations.GetMemoryReadsThroughTheIndex : Prop :=
  ∀ (ra : Reg) (s : State),
    (∀ v s1, busRead s.ix s = .ok v s1 →
      ∃ t, exec (.gm ra) s = .next t ∧ (∀ r, t.reg r = if r = ra then 0#8 ++ v else s.reg r) ∧
        sameBus s1 t ∧ memoryKept s t) ∧
    (∀ f, busRead s.ix s = .stop f → handlerStops (.gm ra) s f)

/-- SM: one write of the low byte at ix, no register written; the byte at ix is the only one that may change (R106). -/
def Obligations.SetMemoryWritesTheLowByte : Prop :=
  (∀ a b c : Nibble, decodeWord (0x3#4 ++ a ++ b ++ c) = .sm (regOf a)) ∧
  ∀ (ra : Reg) (hi lo : Byte) (s : State), (Instr.sm ra).length = 2 ∧
    (s.reg ra = hi ++ lo →
      (∀ s1, busWrite s.ix lo s = .ok () s1 →
        ∃ t, exec (.sm ra) s = .next t ∧ (∀ r, t.reg r = s.reg r) ∧ sameBus s1 t ∧
          (∀ b : Word, b ≠ s.ix → t.byteAt b = s.byteAt b)) ∧
      (∀ f, busWrite s.ix lo s = .stop f → handlerStops (.sm ra) s f))

/-- LOAD_IMM. Into x15 the advance of 2 is added to the loaded value. That, the order of the two reads and the wrap of the
second address are the spec's decisions D8, D2 and D3 (log 10, log 14). -/
def Obligations.LoadImmediateTakesTheInlineOperand : Prop :=
  ∀ (rb : Reg) (s : State),
    (∀ lo hi s2, readsPair s.pc s lo hi s2 →
      ∃ t, exec (.loadImm rb) s = .next t ∧
        (∀ r, t.reg r =
          if r = Reg.pc then (if rb = Reg.pc then (hi ++ lo : Word) + 2 else s.pc + 2)
          else if r = rb then hi ++ lo else s.reg r) ∧
        sameBus s2 t ∧ memoryKept s t) ∧
    (∀ f, readsPairStops s.pc s f → handlerStops (.loadImm rb) s f)

/-- JMP_IMM and UJMP. JMP_IMM reads its operand whether or not it is taken: the spec's decision D9 (log 15). -/
def Obligations.JumpsToTheInlineAddress : Prop :=
  ∀ s : State,
    (∀ lo hi s2, readsPair s.pc s lo hi s2 →
      (∃ t, exec .jmpImm s = .next t ∧
        (∀ r, t.reg r = if r = Reg.pc then (if s.cr = 0 then hi ++ lo else s.pc + 2) else s.reg r) ∧
        sameBus s2 t ∧ memoryKept s t) ∧
      (∃ t, exec .ujmp s = .next t ∧ (∀ r, t.reg r = if r = Reg.pc then hi ++ lo else s.reg r) ∧
        sameBus s2 t ∧ memoryKept s t)) ∧
    (∀ f, readsPairStops s.pc s f → handlerStops .jmpImm s f ∧ handlerStops .ujmp s f)

/-- PUSH_IMM: the operand's two bytes go to S and S+1. The order of the transactions, the wrap and the deferred register
writes are the spec's decisions D2, D3 and D7 (log 10, log 14). -/
def Obligations.PushImmediatePushesTheOperand : Prop :=
  ∀ s : State,
    (∀ lo hi s2 s4, readsPair s.pc s lo hi s2 → writesPair s.sp lo hi s2 s4 →
      ∃ t, exec .pushImm s = .next t ∧
        (∀ r, t.reg r = if r = Reg.sp then s.sp + 2 else if r = Reg.pc then s.pc + 2 else s.reg r) ∧
        sameBus s4 t ∧ memoryKeptButWord s.sp s t) ∧
    (∀ f, readsPairStops s.pc s f → handlerStops .pushImm s f) ∧
    (∀ lo hi s2 f, readsPair s.pc s lo hi s2 → writesPairStops s.sp lo hi s2 f → handlerStops .pushImm s f)

/-- PUSH_REG: the low byte of the register at S, the high byte at S+1; for x13 the value is S. Decisions D2, D3 and D7 as
for PUSH_IMM. -/
def Obligations.PushRegisterPushesTheValue : Prop :=
  ∀ (rc : Reg) (lo hi : Byte) (s : State), s.reg rc = hi ++ lo →
    (∀ s2, writesPair s.sp lo hi s s2 →
      ∃ t, exec (.pushReg rc) s = .next t ∧ (∀ r, t.reg r = if r = Reg.sp then s.sp + 2 else s.reg r) ∧
        sameBus s2 t ∧ memoryKeptButWord s.sp s t) ∧
    (∀ f, writesPairStops s.sp lo hi s f → handlerStops (.pushReg rc) s f)

/-- POP_REG: sp is S - 2, and then the register takes the popped value, so that into x13 the value stays: the spec's
decision D8 (log 14). -/
def Obligations.PopRegisterPopsTheValue : Prop :=
  ∀ (rc : Reg) (s : State),
    (∀ lo hi s2, readsPair (s.sp - 2) s lo hi s2 →
      ∃ t, exec (.popReg rc) s = .next t ∧
        (∀ r, t.reg r = if r = rc then hi ++ lo else if r = Reg.sp then s.sp - 2 else s.reg r) ∧
        sameBus s2 t ∧ memoryKept s t) ∧
    (∀ f, readsPairStops (s.sp - 2) s f → handlerStops (.popReg rc) s f)

/-- CALL_ADDR: the address after the operand is pushed first, then the target is read, so that the read sees what the push
stored: the spec's decision D7 (log 14). -/
def Obligations.CallAddressPushesThenReadsTheTarget : Prop :=
  ∀ (plo phi : Byte) (s : State), s.pc + 2 = phi ++ plo →
    (∀ lo hi s2 s4, writesPair s.sp plo phi s s2 → readsPair s.pc s2 lo hi s4 →
      ∃ t, exec .callAddr s = .next t ∧
        (∀ r, t.reg r = if r = Reg.sp then s.sp + 2 else if r = Reg.pc then hi ++ lo else s.reg r) ∧
        sameBus s4 t ∧ memoryKeptButWord s.sp s t) ∧
    (∀ f, writesPairStops s.sp plo phi s f → handlerStops .callAddr s f) ∧
    (∀ s2 f, writesPair s.sp plo phi s s2 → readsPairStops s.pc s2 f → handlerStops .callAddr s f)

/-- CALL_REG: P is pushed, and pc takes the register's value from before the push. Decisions D2, D3 and D7 as for PUSH_IMM. -/
def Obligations.CallRegisterPushesTheNextAddress : Prop :=
  ∀ (rc : Reg) (plo phi : Byte) (s : State), s.pc = phi ++ plo →
    (∀ s2, writesPair s.sp plo phi s s2 →
      ∃ t, exec (.callReg rc) s = .next t ∧
        (∀ r, t.reg r = if r = Reg.sp then s.sp + 2 else if r = Reg.pc then s.reg rc else s.reg r) ∧
        sameBus s2 t ∧ memoryKeptButWord s.sp s t) ∧
    (∀ f, writesPairStops s.sp plo phi s f → handlerStops (.callReg rc) s f)

/-- RET: pc takes the popped value and sp is S - 2. Decisions D2, D3 and D7 as for PUSH_IMM. -/
def Obligations.ReturnPopsTheProgramCounter : Prop :=
  ∀ s : State,
    (∀ lo hi s2, readsPair (s.sp - 2) s lo hi s2 →
      ∃ t, exec .ret s = .next t ∧
        (∀ r, t.reg r = if r = Reg.pc then hi ++ lo else if r = Reg.sp then s.sp - 2 else s.reg r) ∧
        sameBus s2 t ∧ memoryKept s t) ∧
    (∀ f, readsPairStops (s.sp - 2) s f → handlerStops .ret s f)

/-- STORE_ADDR: the register's bytes go to the address the operand names and the one after it. Decisions D2, D3 and D7 as for
PUSH_IMM. -/
def Obligations.StoreWritesTheRegisterAtTheOperand : Prop :=
  ∀ (rc : Reg) (vlo vhi : Byte) (s : State), s.reg rc = vhi ++ vlo →
    (∀ lo hi s2 s4, readsPair s.pc s lo hi s2 → writesPair (hi ++ lo) vlo vhi s2 s4 →
      ∃ t, exec (.storeAddr rc) s = .next t ∧ (∀ r, t.reg r = if r = Reg.pc then s.pc + 2 else s.reg r) ∧
        sameBus s4 t ∧ memoryKeptButWord (hi ++ lo) s t) ∧
    (∀ f, readsPairStops s.pc s f → handlerStops (.storeAddr rc) s f) ∧
    (∀ lo hi s2 f, readsPair s.pc s lo hi s2 → writesPairStops (hi ++ lo) vlo vhi s2 f →
      handlerStops (.storeAddr rc) s f)

/-- LOAD_ADDR: the register takes the word at the address the operand names; into x15 the advance of 2 is added to it. That it
loads from memory, and the two writes to x15, are the spec's decisions D6 and D8 (log 13, log 14). -/
def Obligations.LoadReadsTheWordAtTheOperand : Prop :=
  ∀ (rc : Reg) (s : State),
    (∀ lo hi s2 vlo vhi s4, readsPair s.pc s lo hi s2 → readsPair (hi ++ lo) s2 vlo vhi s4 →
      ∃ t, exec (.loadAddr rc) s = .next t ∧
        (∀ r, t.reg r =
          if r = Reg.pc then (if rc = Reg.pc then (vhi ++ vlo : Word) + 2 else s.pc + 2)
          else if r = rc then vhi ++ vlo else s.reg r) ∧
        sameBus s4 t ∧ memoryKept s t) ∧
    (∀ f, readsPairStops s.pc s f → handlerStops (.loadAddr rc) s f) ∧
    (∀ lo hi s2 f, readsPair s.pc s lo hi s2 → readsPairStops (hi ++ lo) s2 f → handlerStops (.loadAddr rc) s f)

/-! ## The same on plain memory: the bytes read and stored, and the transactions -/

/-- GM and SM where ix names plain memory. -/
def Obligations.IndexedBytesOnPlainMemory : Prop :=
  ∀ (ra : Reg) (s : State), s.plainAt s.ix →
    (∃ t, exec (.gm ra) s = .next t ∧
      (∀ r, t.reg r = if r = ra then 0#8 ++ s.byteAt s.ix else s.reg r) ∧ memoryKept s t ∧
      onlyStoreChanged s t ∧ t.log = s.log ++ [.read s.ctx s.ix (.ok (s.byteAt s.ix))]) ∧
    (Memory.wf s.bus.cells = true →
      ∃ t, exec (.sm ra) s = .next t ∧ (∀ r, t.reg r = s.reg r) ∧
        (∀ b : Word, t.byteAt b = if b = s.ix then (s.reg ra).extractLsb' 0 8 else s.byteAt b) ∧
        onlyStoreChanged s t ∧
        t.log = s.log ++ [.write s.ctx s.ix ((s.reg ra).extractLsb' 0 8) (.ok ())])

/-- LOAD_IMM, JMP_IMM and UJMP where the operand lies in plain memory. The wrap at P = 0xFFFF, D8 and D9 are the spec's
decisions. -/
def Obligations.InlineOperandsOnPlainMemory : Prop :=
  ∀ (rb : Reg) (s : State), s.plainAt s.pc → s.plainAt (s.pc + 1) →
    (∃ t, exec (.loadImm rb) s = .next t ∧
      (∀ r, t.reg r =
        if r = Reg.pc then (if rb = Reg.pc then s.wordAt s.pc + 2 else s.pc + 2)
        else if r = rb then s.wordAt s.pc else s.reg r) ∧ memoryKept s t ∧ onlyStoreChanged s t) ∧
    (∃ t, exec .jmpImm s = .next t ∧
      (∀ r, t.reg r = if r = Reg.pc then (if s.cr = 0 then s.wordAt s.pc else s.pc + 2) else s.reg r) ∧
      memoryKept s t ∧ onlyStoreChanged s t) ∧
    (∃ t, exec .ujmp s = .next t ∧
      (∀ r, t.reg r = if r = Reg.pc then s.wordAt s.pc else s.reg r) ∧ memoryKept s t ∧ onlyStoreChanged s t)

/-- PUSH_REG and PUSH_IMM where the stack slot and the operand lie in plain memory: the bytes at S and S+1, modulo 2^16, and
no other byte. The order and the wrap are the spec's decisions D2 and D3. -/
def Obligations.PushesOnPlainMemory : Prop :=
  ∀ s : State, Memory.wf s.bus.cells = true → s.plainAt s.sp → s.plainAt (s.sp + 1) →
    (∀ rc : Reg, ∃ t, exec (.pushReg rc) s = .next t ∧
      (∀ r, t.reg r = if r = Reg.sp then s.sp + 2 else s.reg r) ∧
      (∀ b : Word, t.byteAt b =
        if b = s.sp then (s.reg rc).extractLsb' 0 8
        else if b = s.sp + 1 then (s.reg rc).extractLsb' 8 8 else s.byteAt b) ∧
      onlyStoreChanged s t ∧
      t.log = s.log ++ [.write s.ctx s.sp ((s.reg rc).extractLsb' 0 8) (.ok ()),
        .write s.ctx (s.sp + 1) ((s.reg rc).extractLsb' 8 8) (.ok ())]) ∧
    (s.plainAt s.pc → s.plainAt (s.pc + 1) → ∃ t, exec .pushImm s = .next t ∧
      (∀ r, t.reg r = if r = Reg.sp then s.sp + 2 else if r = Reg.pc then s.pc + 2 else s.reg r) ∧
      (∀ b : Word, t.byteAt b =
        if b = s.sp then s.byteAt s.pc else if b = s.sp + 1 then s.byteAt (s.pc + 1) else s.byteAt b) ∧
      onlyStoreChanged s t)

/-- POP_REG and RET where the stack entry lies in plain memory; popping erases nothing. POP_REG into x13 is the spec's
decision D8. -/
def Obligations.PopsOnPlainMemory : Prop :=
  ∀ s : State, s.plainAt (s.sp - 2) → s.plainAt (s.sp - 1) →
    (∀ rc : Reg, ∃ t, exec (.popReg rc) s = .next t ∧
      (∀ r, t.reg r =
        if r = rc then s.byteAt (s.sp - 1) ++ s.byteAt (s.sp - 2)
        else if r = Reg.sp then s.sp - 2 else s.reg r) ∧ memoryKept s t ∧ onlyStoreChanged s t) ∧
    (∃ t, exec .ret s = .next t ∧
      (∀ r, t.reg r =
        if r = Reg.pc then s.byteAt (s.sp - 1) ++ s.byteAt (s.sp - 2)
        else if r = Reg.sp then s.sp - 2 else s.reg r) ∧ memoryKept s t ∧ onlyStoreChanged s t)

/-- CALL_REG and CALL_ADDR where the stack slot and the operand lie in plain memory. CALL_ADDR's target is the operand as it
stands after the push, which may have stored over it: the spec's decision D7. -/
def Obligations.CallsOnPlainMemory : Prop :=
  ∀ s : State, Memory.wf s.bus.cells = true → s.plainAt s.sp → s.plainAt (s.sp + 1) →
    (∀ rc : Reg, ∃ t, exec (.callReg rc) s = .next t ∧
      (∀ r, t.reg r = if r = Reg.sp then s.sp + 2 else if r = Reg.pc then s.reg rc else s.reg r) ∧
      (∀ b : Word, t.byteAt b =
        if b = s.sp then s.pc.extractLsb' 0 8
        else if b = s.sp + 1 then s.pc.extractLsb' 8 8 else s.byteAt b) ∧ onlyStoreChanged s t) ∧
    (s.plainAt s.pc → s.plainAt (s.pc + 1) → ∃ t, exec .callAddr s = .next t ∧
      (∀ r, t.reg r = if r = Reg.sp then s.sp + 2 else if r = Reg.pc then t.wordAt s.pc else s.reg r) ∧
      (∀ b : Word, t.byteAt b =
        if b = s.sp then (s.pc + 2).extractLsb' 0 8
        else if b = s.sp + 1 then (s.pc + 2).extractLsb' 8 8 else s.byteAt b) ∧ onlyStoreChanged s t)

/-- STORE_ADDR and LOAD_ADDR where the operand and the word it names lie in plain memory. The order and the wrap are the
spec's decisions D2 and D3, LOAD_ADDR's reading D6, its two writes to x15 D8. -/
def Obligations.StoreAndLoadOnPlainMemory : Prop :=
  ∀ (rc : Reg) (s : State), s.plainAt s.pc → s.plainAt (s.pc + 1) →
    s.plainAt (s.wordAt s.pc) → s.plainAt (s.wordAt s.pc + 1) →
    (Memory.wf s.bus.cells = true → ∃ t, exec (.storeAddr rc) s = .next t ∧
      (∀ r, t.reg r = if r = Reg.pc then s.pc + 2 else s.reg r) ∧
      (∀ b : Word, t.byteAt b =
        if b = s.wordAt s.pc then (s.reg rc).extractLsb' 0 8
        else if b = s.wordAt s.pc + 1 then (s.reg rc).extractLsb' 8 8 else s.byteAt b) ∧
      onlyStoreChanged s t) ∧
    (∃ t, exec (.loadAddr rc) s = .next t ∧
      (∀ r, t.reg r =
        if r = Reg.pc then (if rc = Reg.pc then s.wordAt (s.wordAt s.pc) + 2 else s.pc + 2)
        else if r = rc then s.wordAt (s.wordAt s.pc) else s.reg r) ∧ memoryKept s t ∧ onlyStoreChanged s t)

/-! ## The bus -/

/-- On plain memory a write is answered Ok and a later read of any plain address gives the byte of the latest write there. -/
def Obligations.PlainReadGivesTheLatestWrite : Prop :=
  ∀ (s : State) (a b : Word) (v : Byte), Memory.wf s.bus.cells = true → s.plainAt a → s.plainAt b →
    ∃ t u, busWrite a v s = .ok () t ∧ busRead b t = .ok (if b = a then v else s.byteAt b) u ∧
      t.regs = s.regs ∧ u.regs = s.regs ∧ memoryKept t u

/-- A two-byte access is not atomic. Where plain memory serves its first transaction and the second stops, for whatever
reason, the access stops for that reason: a first write stays written and a first read has happened, nothing is rolled back,
and no register changes. The second stops with its code where the host dictates it and where the map rejects its address. The
order of the two is the spec's decision D2 (log 10). -/
def Obligations.TwoByteAccessIsNotAtomic : Prop :=
  ∀ (s : State) (a : Word) (lo hi : Byte),
    Memory.wf s.bus.cells = true → s.served → portAt s.bus.map a.toNat = none →
    (∃ s1, busWrite a lo s = .ok () s1 ∧ ∀ f, busWrite (a + 1) hi s1 = .stop f →
      memWrite16 a (hi ++ lo) s = .stop f ∧ f.left.regs = s.regs ∧
      (∀ b : Word, f.left.byteAt b = if b = a then lo else s.byteAt b) ∧
      ∃ answer, answer.result = f.result ∧
        f.left.log = s.log ++ [.write s.ctx a lo (.ok ()), .write s.ctx (a + 1) hi answer]) ∧
    (∃ s1, busRead a s = .ok (s.byteAt a) s1 ∧ ∀ f, busRead (a + 1) s1 = .stop f →
      memRead16 a s = .stop f ∧ f.left.regs = s.regs ∧ memoryKept s f.left ∧
      ∃ answer, answer.result = f.result ∧
        f.left.log = s.log ++ [.read s.ctx a (.ok (s.byteAt a)), .read s.ctx (a + 1) answer]) ∧
    ∀ code : ErrorCode,
      (∃ rest, s.bus.answers = .served :: .reject code :: rest) ∨
        (s.bus.answers = [] ∧ portAt s.bus.map (a + 1).toNat = some (.rejects code)) →
      (∃ t, memWrite16 a (hi ++ lo) s = .stop (.err code t) ∧ t.regs = s.regs ∧
        (∀ b : Word, t.byteAt b = if b = a then lo else s.byteAt b) ∧
        t.log = s.log ++ [.write s.ctx a lo (.ok ()), .write s.ctx (a + 1) hi (.err code)]) ∧
      (∃ t, memRead16 a s = .stop (.err code t) ∧ t.regs = s.regs ∧ memoryKept s t ∧
        t.log = s.log ++ [.read s.ctx a (.ok (s.byteAt a)), .read s.ctx (a + 1) (.err code)])

/-- Whatever the bus answers to any transaction of a step, to a fetch read or to a handler's, from the host, the map or a
device: the first answer that is not `Ok` is the result of the step, unchanged, and the step's last transaction. A step fails
for no other reason but the sentinel and a zero divisor, and a failed step writes no register but pc, which is at A or at P.
An answer to the first fetch read leaves pc too. Passing any of the four codes on is the spec's decision D11 (log 16), a step
without an end its D13 (log 6), the registers of a failed step its D5 and D7 (log 12, log 14). -/
def Obligations.BusAnswersPassVerbatim : Prop :=
  (∀ s : State, ∃ ts, (stepCall s).2.log = s.log ++ ts ∧
    (∀ x ∈ ts, x.result ≠ .ok → (stepCall s).1 = x.result ∧ ts.getLast? = some x) ∧
    ((stepCall s).1 ≠ .ok →
      (∀ r, r ≠ Reg.pc → (stepCall s).2.reg r = s.reg r) ∧
      ((stepCall s).2.pc = s.pc ∨ (stepCall s).2.pc = s.pc + 2) ∧
      ((s.pc = 0xFFFF ∧ stepCall s = (.err .instructionInvalid, s)) ∨
        (∃ b0 b1 ra rb, ts = [.read s.ctx s.pc (.ok b0), .read s.ctx (s.pc + 1) (.ok b1)] ∧
          (decodeWord (b0 ++ b1) = .div ra rb ∨ decodeWord (b0 ++ b1) = .mod ra rb) ∧
          (stepCall s).2.reg rb = 0 ∧ (stepCall s).1 = .err .arithmeticFault) ∨
        ∃ x, ts.getLast? = some x ∧ x.result = (stepCall s).1))) ∧
  ∀ (s : State) (rest : List Directive), s.pc ≠ 0xFFFF →
    (∀ code, s.bus.answers = .reject code :: rest →
      (stepCall s).1 = .err code ∧ (stepCall s).2.regs = s.regs ∧ memoryKept s (stepCall s).2) ∧
    (s.bus.answers = .silent :: rest →
      (stepCall s).1 = .unfinished ∧ (stepCall s).2.regs = s.regs ∧ memoryKept s (stepCall s).2)

/-- The bus alone decides what the core sees (that its answers stand in State as data is log 1): two machines with the same registers, context handle and dictated answers, six
or more and none left to a store, return the same result, the same registers and the same transactions from a step,
whatever stands in their memories, maps and devices. -/
def Obligations.TheBusIsTheOnlyInput : Prop :=
  ∀ s t : State, s.regs = t.regs → s.ctx = t.ctx → s.bus.answers = t.bus.answers →
    6 ≤ s.bus.answers.length → Directive.served ∉ s.bus.answers →
    (stepCall s).1 = (stepCall t).1 ∧ (stepCall s).2.regs = (stepCall t).2.regs ∧
    ∃ ts, (stepCall s).2.log = s.log ++ ts ∧ (stepCall t).2.log = t.log ++ ts

/-- The harness's three devices: the exit strobe at 0, the character input at 1, the character output at 2. That the run ends
at the write to 0, and what the invalid accesses return, are the spec's own readings (D20, log 18). -/
def Obligations.HarnessDevicesAnswer : Prop :=
  ∀ (s : State) (n : Nat) (writable : Bool) (v : Byte), s.bus.answers = [] → s.bus.map = harnessMap n writable →
    (∃ t, busWrite 0 v s = .stop (.runEnded t) ∧ t.regs = s.regs ∧ t.bus = s.bus) ∧
    (∃ t, busRead 0 s = .stop (.err .addressInvalid t) ∧ t.regs = s.regs ∧ t.bus = s.bus) ∧
    (∀ c rest, s.bus.input = c :: rest →
      ∃ t, busRead 1 s = .ok c t ∧ t.regs = s.regs ∧ t.bus = { s.bus with input := rest }) ∧
    (∀ e, s.bus.input = [] → s.bus.eof = some e →
      ∃ t, busRead 1 s = .ok e t ∧ t.regs = s.regs ∧ t.bus = s.bus) ∧
    (s.bus.input = [] → s.bus.eof = none →
      ∃ t, busRead 1 s = .stop (.stuck t) ∧ t.regs = s.regs ∧ t.bus = s.bus) ∧
    (∃ t, busWrite 1 v s = .stop (.err .addressInvalid t) ∧ t.regs = s.regs ∧ t.bus = s.bus) ∧
    (∃ t, busWrite 2 v s = .ok () t ∧ t.regs = s.regs ∧ t.bus = { s.bus with output := s.bus.output ++ [v] }) ∧
    (∃ t, busRead 2 s = .stop (.err .addressInvalid t) ∧ t.regs = s.regs ∧ t.bus = s.bus)

/-- The harness starts the core with pc = 3, the registers given it, and byte i of the ROM at 3 + i over the RAM given it; a
ROM longer than 65533 bytes is refused (D22, log 18). -/
def Obligations.HarnessLoadsTheRomAtThree : Prop :=
  ∀ (regs : Vector Word 16) (ctx : Nat) (rom : List Byte) (writable : Bool) (ram : Memory) (input : List Byte)
    (eof : Option Byte), Memory.wf ram = true →
    (rom.length ≤ 65533 →
      ∃ s, harnessStart regs ctx rom writable ram input eof = .ok s ∧ s.pc = 3 ∧
        (∀ r : Reg, r ≠ Reg.pc → s.reg r = regs[r]) ∧ s.bus.input = input ∧ s.bus.eof = eof ∧
        (∀ (i : Nat) (h : i < rom.length), s.byteAt (BitVec.ofNat 16 (3 + i)) = rom[i]) ∧
        (∀ a : Word, a.toNat < 3 ∨ 3 + rom.length ≤ a.toNat → s.byteAt a = Memory.read ram a.toNat)) ∧
    (65533 < rom.length →
      harnessStart regs ctx rom writable ram input eof = .error (.romTooLong rom.length))

/-! ## Construction, reset and the invariant -/

/-- Construction writes x[i] <- init_regs(i) for all sixteen registers, issues no transaction and cannot fail; the core is
then halted-invalid exactly when init_regs(15) is the sentinel (R250). -/
def Obligations.ConstructionInstallsTheHostsRegisters : Prop :=
  ∀ (initRegs : Vector Word 16) (bus : Bus) (ctx : Nat),
    (∀ r : Reg, (State.construct initRegs bus ctx).reg r = initRegs[r]) ∧
    (State.construct initRegs bus ctx).bus = bus ∧ (State.construct initRegs bus ctx).ctx = ctx ∧
    (State.construct initRegs bus ctx).log = [] ∧
    ((State.construct initRegs bus ctx).halted = true ↔ initRegs[(15 : Reg)] = 0xFFFF)

/-- The reset state of the model: pc at the conventional entry point 3 and every other register 0, nothing issued, memory with
nothing listed. The register values, pc's among them, and the plain memory are the model's choices (log 1 to log 4). -/
def Obligations.ResetStateOfTheModel : Prop :=
  (∀ r : Reg, State.reset.reg r = if r = Reg.pc then 3 else 0) ∧ State.reset.log = [] ∧ State.reset.plain ∧
  ∀ a : Word, State.reset.byteAt a = 0

/-- The invariant holds at reset, and of any construction on a store in canonical form. -/
def Obligations.InvariantHoldsAtReset : Prop :=
  State.reset.Inv ∧
  ∀ (initRegs : Vector Word 16) (bus : Bus) (ctx : Nat), Memory.wf bus.cells = true →
    (State.construct initRegs bus ctx).Inv

/-- Every step keeps the invariant, from every state that meets it, and so does every step that stops, in the state it
leaves: the store stays canonical, the context handle never changes, and every transaction on record carries it. The form of
the store and the record are the model's (log 1, log 7). -/
def Obligations.EveryStepKeepsTheInvariant : Prop :=
  ∀ s : State, s.Inv →
    (∀ t, step s = .next t → t.Inv ∧ t.ctx = s.ctx) ∧ (∀ f, step s = .fault f → f.left.Inv ∧ f.left.ctx = s.ctx)

/-- Placing an instruction of the opcode table's numbering where the next step fetches makes the next step run it, in a state
whose bus is the one placed in: the operand of bits 31 to 16 stands at the new pc, in plain memory, every byte but the four is
as before, and the two fetch reads are the only transactions. The layout of the bytes and the order of the reads rest on the
spec's decisions D1 and D2 (log 9, log 10); withFetchWord is the model's (log 20). -/
def Obligations.PlacedInstructionIsRunNext : Prop :=
  ∀ (s : State) (nbits w : Nat) (i : Instr), Memory.wf s.bus.cells = true → s.pc ≠ 0xFFFF →
    decodeTableWord nbits w = some i →
    ∃ u, step (s.withFetchWord nbits w) = exec i u ∧
      (∀ r, u.reg r = if r = Reg.pc then s.pc + 2 else s.reg r) ∧
      u.bus = (s.withFetchWord nbits w).bus ∧ u.ctx = s.ctx ∧
      u.plainAt u.pc ∧ u.plainAt (u.pc + 1) ∧ u.wordAt u.pc = BitVec.ofNat 16 (w % 2 ^ nbits / 65536) ∧
      (∀ a : Word, a ≠ s.pc → a ≠ s.pc + 1 → a ≠ s.pc + 2 → a ≠ s.pc + 3 → u.byteAt a = s.byteAt a) ∧
      u.log = s.log ++ [.read s.ctx s.pc (.ok (highByte (BitVec.ofNat 16 (w % 2 ^ nbits)))),
        .read s.ctx (s.pc + 1) (.ok (lowByte (BitVec.ofNat 16 (w % 2 ^ nbits))))]

/-! ## Stack laws -/

/-- PUSH_REG and then POP_REG of the same register restores the register and sp, for every register, x13 and x15 among them;
the pop's base advance stands between. Derived by the spec from its rules and its decision D8 (log 14). -/
def Obligations.PushThenPopRestoresTheRegister : Prop :=
  ∀ (rc : Reg) (s : State), Memory.wf s.bus.cells = true → s.plainAt s.sp → s.plainAt (s.sp + 1) →
    ∃ t u, exec (.pushReg rc) s = .next t ∧ exec (.popReg rc) t.advance = .next u ∧
      u.reg rc = s.reg rc ∧ u.sp = s.sp ∧
      (∀ r, r ≠ rc → r ≠ Reg.pc → u.reg r = s.reg r)

/-- A call and then RET, with sp as the call left it and the stack slot as the call wrote it, comes back: after CALL_ADDR at
P + 2 (A + 4), after CALL_REG at P (A + 2), with sp as before the call. Derived by the spec from its rules; CALL_ADDR's order is its
decision D7 (log 14). -/
def Obligations.CallThenReturnComesBack : Prop :=
  ∀ s : State, Memory.wf s.bus.cells = true → s.plainAt s.sp → s.plainAt (s.sp + 1) →
    (∀ rc : Reg, ∃ t, exec (.callReg rc) s = .next t ∧
      ∀ callee : State, callee.sp = t.sp → callee.plainAt s.sp → callee.plainAt (s.sp + 1) →
        callee.byteAt s.sp = t.byteAt s.sp → callee.byteAt (s.sp + 1) = t.byteAt (s.sp + 1) →
        ∃ u, exec .ret callee = .next u ∧ u.pc = s.pc ∧ u.sp = s.sp) ∧
    (s.plainAt s.pc → s.plainAt (s.pc + 1) → ∃ t, exec .callAddr s = .next t ∧
      ∀ callee : State, callee.sp = t.sp → callee.plainAt s.sp → callee.plainAt (s.sp + 1) →
        callee.byteAt s.sp = t.byteAt s.sp → callee.byteAt (s.sp + 1) = t.byteAt (s.sp + 1) →
        ∃ u, exec .ret callee = .next u ∧ u.pc = s.pc + 2 ∧ u.sp = s.sp)

/-! ## Regions of the map, the harness's ROM, and runs -/

/-- The first region of the map that holds an address decides it; an address in none is plain memory. A rejecting region
answers every transaction with its code; a read-only region is read like memory and answers a write with AddressInvalid. No
register and no byte of memory changes. That the map is data is log 1, the answer to a write of read-only memory log 18. -/
def Obligations.MapRegionsAnswer : Prop :=
  ∀ (s : State) (a : Word) (v : Byte),
    (∀ before r after, s.bus.map = before ++ r :: after → (∀ q ∈ before, q.holds a.toNat = false) →
      r.holds a.toNat = true → portAt s.bus.map a.toNat = some r.port) ∧
    ((∀ q ∈ s.bus.map, q.holds a.toNat = false) → portAt s.bus.map a.toNat = none) ∧
    (s.served →
      (∀ code, portAt s.bus.map a.toNat = some (.rejects code) →
        (∃ t, busRead a s = .stop (.err code t) ∧ t.regs = s.regs ∧ memoryKept s t ∧
          t.log = s.log ++ [.read s.ctx a (.err code)]) ∧
        (∃ t, busWrite a v s = .stop (.err code t) ∧ t.regs = s.regs ∧ memoryKept s t ∧
          t.log = s.log ++ [.write s.ctx a v (.err code)])) ∧
      (portAt s.bus.map a.toNat = some .readOnly →
        (∃ t, busRead a s = .ok (s.byteAt a) t ∧ t.regs = s.regs ∧ memoryKept s t ∧
          t.log = s.log ++ [.read s.ctx a (.ok (s.byteAt a))]) ∧
        (∃ t, busWrite a v s = .stop (.err .addressInvalid t) ∧ t.regs = s.regs ∧ memoryKept s t ∧
          t.log = s.log ++ [.write s.ctx a v (.err .addressInvalid)])))

/-- On the harness's map the three devices are at 0, 1 and 2, the bytes of the ROM from 3 on are read-only where the ROM is not
writable, and every other address is plain memory; nothing above 2 is anything else where it is writable. The writability is
the open parameter of the spec's D22 (log 18). -/
def Obligations.HarnessMapPlacesTheRom : Prop :=
  ∀ (n : Nat) (writable : Bool) (a : Nat),
    portAt (harnessMap n writable) 0 = some .exitStrobe ∧ portAt (harnessMap n writable) 1 = some .charInput ∧
    portAt (harnessMap n writable) 2 = some .charOutput ∧
    (3 ≤ a → portAt (harnessMap n writable) a = if writable = false ∧ a < 3 + n then some .readOnly else none)

/-- The instruction limit only cuts a run short: where a run without a limit ends, it ends in one way, every limited run
answers Ok or ends the same, and every limit from some number on gives that end. That the limit counts step calls, and what
a run without one is, are the model's (log 18); that the host stops at a failed step is the spec's decision D12 (log 5). -/
def Obligations.LimitOnlyCutsARunShort : Prop :=
  ∀ (s : State) (r : StepResult × State), runEndsWith none s r →
    (∀ r', runEndsWith none s r' → r' = r) ∧
    (∀ n, (runCalls n s).1 = .ok ∨ runEndsWith (some n) s r) ∧
    ∃ n, ∀ m, n ≤ m → runEndsWith (some m) s r
end

