-- ==== Sys2Proof/Laws/Decode.lean ====
section
/-! SUPPORT. A word is its four nibbles, and its fields and its masked bits are read nibble by nibble. -/
namespace Sys2Proof

/-- Appending a nibble below a vector multiplies by 16. -/
theorem toNat_append_nibble {n : Nat} (x : BitVec n) (y : Nibble) : (x ++ y).toNat = x.toNat * 16 + y.toNat := by
  rw [BitVec.toNat_append, ← Nat.shiftLeft_add_eq_or_of_lt y.isLt, Nat.shiftLeft_eq]

/-- A word of four nibbles as a number. -/
theorem toNat_wordOfNibbles (a b c d : Nibble) :
    (wordOfNibbles a b c d).toNat = ((a.toNat * 16 + b.toNat) * 16 + c.toNat) * 16 + d.toNat := by
  unfold wordOfNibbles
  rw [toNat_append_nibble, toNat_append_nibble, toNat_append_nibble]

/-- A field of a word as a number. -/
theorem toNat_field (w : Word) (lo n : Nat) : (w.extractLsb' lo n).toNat = w.toNat / 2 ^ lo % 2 ^ n := by
  rw [BitVec.extractLsb'_toNat, Nat.shiftRight_eq_div_pow]

/-- The fields of a word of four nibbles. -/
theorem fieldsOf_wordOfNibbles (a b c d : Nibble) :
    fieldsOf (wordOfNibbles a b c d) =
      { opcode := a, regA := b, regB := c, rrB := d, imm12 := b ++ c ++ d, raw2 := c ++ d } := by
  have ha := a.isLt; have hb := b.isLt; have hc := c.isLt; have hd := d.isLt
  simp only [fieldsOf, Fields.mk.injEq]
  refine ⟨?_, ?_, ?_, ?_, ?_, ?_⟩ <;> apply BitVec.eq_of_toNat_eq <;>
    simp only [toNat_field, toNat_wordOfNibbles, toNat_append_nibble] <;> omega

/-- Every word is the word of its four nibbles. -/
theorem wordOfNibbles_fields (w : Word) :
    wordOfNibbles (fieldsOf w).opcode (fieldsOf w).regA (fieldsOf w).regB (fieldsOf w).rrB = w := by
  have hw := w.isLt
  apply BitVec.eq_of_toNat_eq
  simp only [toNat_wordOfNibbles, fieldsOf, toNat_field]
  omega

/-- Masking a word masks each nibble. -/
theorem wordOfNibbles_and (a b c d m n p q : Nibble) :
    wordOfNibbles a b c d &&& wordOfNibbles m n p q = wordOfNibbles (a &&& m) (b &&& n) (c &&& p) (d &&& q) := by
  unfold wordOfNibbles
  exact BitVec.and_append.trans (by rw [BitVec.and_append, BitVec.and_append])

/-- The nibble of a register names the register. -/
@[simp] theorem regOf_nibbleOf (r : Reg) : regOf (nibbleOf r) = r := rfl

end Sys2Proof
end

