-- ==== Sys2Proof/Laws/Bytes.lean ====
section
/-! SUPPORT. A 16-bit value and its two bytes, the zero extension of a byte, and the shift count as numbers. -/
namespace Sys2Proof

/-- Appending a byte below a byte multiplies by 256. -/
theorem toNat_append_byte (hi lo : Byte) : (hi ++ lo : Word).toNat = hi.toNat * 256 + lo.toNat := by
  rw [BitVec.toNat_append, ← Nat.shiftLeft_add_eq_or_of_lt lo.isLt, Nat.shiftLeft_eq]

/-- The low byte of two bytes. -/
theorem lowByte_append (hi lo : Byte) : lowByte (hi ++ lo) = lo := by
  have := lo.isLt
  apply BitVec.eq_of_toNat_eq
  rw [lowByte, toNat_field, toNat_append_byte]
  omega

/-- The high byte of two bytes. -/
theorem highByte_append (hi lo : Byte) : highByte (hi ++ lo) = hi := by
  have := lo.isLt
  have := hi.isLt
  apply BitVec.eq_of_toNat_eq
  rw [highByte, toNat_field, toNat_append_byte]
  omega

/-- A value is its high byte over its low byte. -/
theorem highByte_append_lowByte (v : Word) : (highByte v ++ lowByte v : Word) = v := by
  have := v.isLt
  apply BitVec.eq_of_toNat_eq
  rw [toNat_append_byte, highByte, lowByte, toNat_field, toNat_field]
  omega

/-- An address is not the one after it. -/
theorem succ_ne (a : Word) : a + 1 ≠ a := by
  intro h
  have h' := congrArg BitVec.toNat h
  have := a.isLt
  simp only [BitVec.toNat_add] at h'
  simp at h'
  omega

namespace Machine

/-- The zero extension puts a byte of zeros above the byte. -/
theorem zext16_eq_append (v : Byte) : zext16 v = 0#8 ++ v := by
  have := v.isLt
  apply BitVec.eq_of_toNat_eq
  rw [toNat_append_byte]
  simp [zext16]
  omega

/-- The shift count is the register modulo 16. -/
theorem shiftCount_eq_mod (b : Word) : shiftCount b = b.toNat % 16 := by
  simp [shiftCount, BitVec.extractLsb'_toNat]

end Machine

end Sys2Proof
end

