-- ==== Sys2Proof/Laws/Memory.lean ====
section
/-! SUPPORT. The store: a byte written is read back, every other byte is left alone, and every operation keeps the
canonical form. -/
namespace Sys2Proof.Machine

open Sys2Proof

theorem wfFrom_cons {lo k : Nat} {v : Byte} {m : Memory} :
    Memory.wfFrom lo ((k, v) :: m) = true ↔
      lo ≤ k ∧ k < 65536 ∧ v ≠ Config.unlistedByte ∧ Memory.wfFrom (k + 1) m = true := by
  simp [Memory.wfFrom, and_assoc]

theorem wfFrom_mono {lo lo' : Nat} (h : lo' ≤ lo) {m : Memory} (hm : Memory.wfFrom lo m = true) :
    Memory.wfFrom lo' m = true := by
  cases m with
  | nil => rfl
  | cons c m =>
    obtain ⟨k, v⟩ := c
    rw [wfFrom_cons] at hm ⊢
    exact ⟨h.trans hm.1, hm.2⟩

/-- Below the first address of a canonical store nothing is listed. -/
theorem read_below {lo a : Nat} {m : Memory} (hm : Memory.wfFrom lo m = true) (h : a < lo) :
    Memory.read m a = Config.unlistedByte := by
  induction m generalizing lo with
  | nil => rfl
  | cons c m ih =>
    obtain ⟨k, v⟩ := c
    rw [wfFrom_cons] at hm
    have : k ≠ a := by omega
    simp only [Memory.read, this, if_false]
    exact ih hm.2.2.2 (by omega)

theorem read_cell_append_same (a : Nat) (v : Byte) (m : Memory)
    (h : Memory.read m a = Config.unlistedByte) : Memory.read (Memory.cell a v ++ m) a = v := by
  unfold Memory.cell
  split
  · next e => simp [h, e]
  · simp [Memory.read]

theorem read_cell_append_other {a b : Nat} (v : Byte) (m : Memory) (h : a ≠ b) :
    Memory.read (Memory.cell a v ++ m) b = Memory.read m b := by
  unfold Memory.cell
  split
  · rfl
  · simp [Memory.read, h]

theorem wfFrom_cell_append {lo a : Nat} (v : Byte) {m : Memory} (hlo : lo ≤ a) (ha : a < 65536)
    (hm : Memory.wfFrom (a + 1) m = true) : Memory.wfFrom lo (Memory.cell a v ++ m) = true := by
  unfold Memory.cell
  split
  · exact wfFrom_mono (by omega) hm
  · next hv => exact wfFrom_cons.2 ⟨hlo, ha, hv, hm⟩

theorem read_write_same_from {lo : Nat} (m : Memory) (a : Nat) (v : Byte) (hm : Memory.wfFrom lo m = true) :
    Memory.read (Memory.write m a v) a = v := by
  induction m generalizing lo with
  | nil => simpa [Memory.write] using read_cell_append_same a v [] rfl
  | cons c m ih =>
    obtain ⟨k, w⟩ := c
    have hm' := hm
    rw [wfFrom_cons] at hm
    unfold Memory.write
    split
    · next h =>
      exact read_cell_append_same a v _ (read_below (lo := k) (wfFrom_cons.2 ⟨le_rfl, hm.2⟩) h)
    · split
      · next h => exact read_cell_append_same a v m (read_below hm.2.2.2 (by omega))
      · next h =>
        have : k ≠ a := fun e => h e.symm
        simpa [Memory.read, this] using ih hm.2.2.2

/-- A byte written to a canonical store is read back. -/
theorem read_write_same (m : Memory) (a : Nat) (v : Byte) (hm : Memory.wf m = true) :
    Memory.read (Memory.write m a v) a = v := read_write_same_from m a v hm

/-- A write leaves every other byte alone. -/
theorem read_write_other (m : Memory) {a b : Nat} (v : Byte) (h : a ≠ b) :
    Memory.read (Memory.write m a v) b = Memory.read m b := by
  induction m with
  | nil => simpa [Memory.write] using read_cell_append_other v [] h
  | cons c m ih =>
    obtain ⟨k, w⟩ := c
    unfold Memory.write
    split
    · exact read_cell_append_other v _ h
    · split
      · next e =>
        rw [read_cell_append_other v m h]
        simp [Memory.read, e ▸ h]
      · simp [Memory.read, ih]

theorem wfFrom_write {lo : Nat} (m : Memory) (a : Nat) (v : Byte) (hlo : lo ≤ a) (ha : a < 65536)
    (hm : Memory.wfFrom lo m = true) : Memory.wfFrom lo (Memory.write m a v) = true := by
  induction m generalizing lo with
  | nil => simpa [Memory.write] using wfFrom_cell_append v hlo ha (m := []) rfl
  | cons c m ih =>
    obtain ⟨k, w⟩ := c
    rw [wfFrom_cons] at hm
    unfold Memory.write
    split
    · next h => exact wfFrom_cell_append v hlo ha (wfFrom_cons.2 ⟨by omega, hm.2⟩)
    · split
      · next h => exact wfFrom_cell_append v hlo ha (h ▸ hm.2.2.2)
      · exact wfFrom_cons.2 ⟨hm.1, hm.2.1, hm.2.2.1, ih (by omega) hm.2.2.2⟩

/-- A write at an address of the space keeps the canonical form. -/
theorem wf_write (m : Memory) (a : Word) (v : Byte) (hm : Memory.wf m = true) :
    Memory.wf (Memory.write m a.toNat v) = true :=
  wfFrom_write m a.toNat v (Nat.zero_le _) a.isLt hm

/-- Storing bytes one after another keeps the canonical form. -/
theorem wf_storeBytes (bs : List Byte) (a : Word) (m : Memory) (hm : Memory.wf m = true) :
    Memory.wf (storeBytes bs a m) = true := by
  induction bs generalizing a m with
  | nil => exact hm
  | cons b bs ih => exact ih (a + 1) _ (wf_write m a b hm)

end Sys2Proof.Machine
end

