-- ==== Sys2Proof/Laws/State.lean ====
section
/-! SUPPORT. One lemma for each field of the state after each update, and what a register reads after a register write. -/
namespace Sys2Proof.Machine

open Sys2Proof

@[simp] theorem setReg_bus (s : State) (r : Reg) (v : Word) : (s.setReg r v).bus = s.bus := rfl
@[simp] theorem setReg_ctx (s : State) (r : Reg) (v : Word) : (s.setReg r v).ctx = s.ctx := rfl
@[simp] theorem setReg_log (s : State) (r : Reg) (v : Word) : (s.setReg r v).log = s.log := rfl
@[simp] theorem setReg_byteAt (s : State) (r : Reg) (v a : Word) : (s.setReg r v).byteAt a = s.byteAt a := rfl

@[simp] theorem advance_bus (s : State) : s.advance.bus = s.bus := rfl
@[simp] theorem advance_ctx (s : State) : s.advance.ctx = s.ctx := rfl
@[simp] theorem advance_log (s : State) : s.advance.log = s.log := rfl
@[simp] theorem advance_byteAt (s : State) (a : Word) : s.advance.byteAt a = s.byteAt a := rfl

@[simp] theorem setCondition_bus (s : State) (h : Bool) : (s.setCondition h).bus = s.bus := rfl
@[simp] theorem setCondition_ctx (s : State) (h : Bool) : (s.setCondition h).ctx = s.ctx := rfl
@[simp] theorem setCondition_log (s : State) (h : Bool) : (s.setCondition h).log = s.log := rfl
@[simp] theorem setCondition_byteAt (s : State) (h : Bool) (a : Word) :
    (s.setCondition h).byteAt a = s.byteAt a := rfl

@[simp] theorem construct_regs (rs : Vector Word 16) (b : Bus) (c : Nat) : (State.construct rs b c).regs = rs := rfl
@[simp] theorem construct_bus (rs : Vector Word 16) (b : Bus) (c : Nat) : (State.construct rs b c).bus = b := rfl
@[simp] theorem construct_ctx (rs : Vector Word 16) (b : Bus) (c : Nat) : (State.construct rs b c).ctx = c := rfl
@[simp] theorem construct_log (rs : Vector Word 16) (b : Bus) (c : Nat) : (State.construct rs b c).log = [] := rfl

@[simp] theorem err_left (c : ErrorCode) (s : State) : (Fault.err c s).left = s := rfl
@[simp] theorem stuck_left (s : State) : (Fault.stuck s).left = s := rfl
@[simp] theorem runEnded_left (s : State) : (Fault.runEnded s).left = s := rfl

/-- Two states with one register file read the same register. -/
theorem reg_congr {s t : State} (h : t.regs = s.regs) (r : Reg) : t.reg r = s.reg r := by
  simp [State.reg, h]

/-- A register reads the value written to it, every other register as before. -/
theorem reg_setReg (s : State) (r q : Reg) (v : Word) :
    (s.setReg r v).reg q = if q = r then v else s.reg q := by
  by_cases h : q = r
  · simp [State.reg, State.setReg, h]
  · have hv : ¬ r.val = q.val := fun e => h (Fin.ext e.symm)
    simp [State.reg, State.setReg, h, hv]

/-- A conditional jump is taken exactly when `cr` is 0. -/
theorem taken_iff (s : State) : s.taken = true ↔ s.cr = 0 := by
  simp [State.taken]

/-- A register after `pc <- pc + 2`. -/
theorem reg_advance (s : State) (q : Reg) :
    s.advance.reg q = if q = Reg.pc then s.pc + Config.twoBytes else s.reg q :=
  reg_setReg s Reg.pc q _

end Sys2Proof.Machine
end

