-- ==== Sys2Proof/Laws/Ops.lean ====
section
/-! SUPPORT. What each shared operation can do, said once: a transaction, the two-byte accesses, and both on plain memory.
Proofs about an instruction cite these instead of unfolding the bus. -/
namespace Sys2Proof.Machine

open Sys2Proof

/-- `s'` is `s` after the transactions `ts` and nothing else: the registers, the handle and the map are those of `s`, the
record has grown by `ts`, each with the handle, and the store keeps its canonical form. -/
structure After (s s' : State) (ts : List Transaction) : Prop where
  regs : s'.regs = s.regs
  ctx : s'.ctx = s.ctx
  map : s'.bus.map = s.bus.map
  log : s'.log = s.log ++ ts
  handles : ∀ x ∈ ts, x.handle = s.ctx
  wf : Memory.wf s.bus.cells = true → Memory.wf s'.bus.cells = true

theorem After.trans {s s1 s2 : State} {ts us : List Transaction} (h : After s s1 ts) (g : After s1 s2 us) :
    After s s2 (ts ++ us) where
  regs := g.regs.trans h.regs
  ctx := g.ctx.trans h.ctx
  map := g.map.trans h.map
  log := by rw [g.log, h.log, List.append_assoc]
  handles x hx := by
    rcases List.mem_append.1 hx with hx | hx
    · exact h.handles x hx
    · rw [g.handles x hx, h.ctx]
  wf hw := g.wf (h.wf hw)

theorem After.reg {s s' : State} {ts : List Transaction} (h : After s s' ts) (r : Reg) : s'.reg r = s.reg r :=
  reg_congr h.regs r

/-- `Reply.finish` gives the value to the rest of the handler. -/
@[simp] theorem finish_ok {α : Type} (v : α) (s : State) (f : α → State → Host.Outcome State Fault Refusal) :
    (Reply.ok v s).finish f = f v s := rfl
@[simp] theorem finish_stop {α : Type} (w : Fault) (f : α → State → Host.Outcome State Fault Refusal) :
    (Reply.stop w : Reply α).finish f = .fault w := rfl
@[simp] theorem andThen_ok {α β : Type} (v : α) (s : State) (f : α → State → Reply β) :
    (Reply.ok v s).andThen f = f v s := rfl
@[simp] theorem andThen_stop {α β : Type} (w : Fault) (f : α → State → Reply β) :
    (Reply.stop w : Reply α).andThen f = .stop w := rfl

/-- A sequence of operations answers exactly when each part does. -/
theorem andThen_eq_ok {α β : Type} {r : Reply α} {f : α → State → Reply β} {v : β} {s : State} :
    r.andThen f = .ok v s ↔ ∃ a s1, r = .ok a s1 ∧ f a s1 = .ok v s := by
  cases r <;> simp [Reply.andThen]

/-- A sequence of operations stops where its first part stops, or its second after the first answered. -/
theorem andThen_eq_stop {α β : Type} {r : Reply α} {f : α → State → Reply β} {w : Fault} :
    r.andThen f = .stop w ↔ r = .stop w ∨ ∃ a s1, r = .ok a s1 ∧ f a s1 = .stop w := by
  cases r <;> simp [Reply.andThen]

theorem finish_eq_next {α : Type} {r : Reply α} {f : α → State → Host.Outcome State Fault Refusal} {t : State} :
    r.finish f = .next t ↔ ∃ a s1, r = .ok a s1 ∧ f a s1 = .next t := by
  cases r <;> simp [Reply.finish]

theorem finish_eq_fault {α : Type} {r : Reply α} {f : α → State → Host.Outcome State Fault Refusal} {w : Fault} :
    r.finish f = .fault w ↔ r = .stop w ∨ ∃ a s1, r = .ok a s1 ∧ f a s1 = .fault w := by
  cases r <;> simp [Reply.finish]

/-- A transaction answered `Ok` delivers its value. -/
theorem deliver_eq_ok {α : Type} {ans : BusAnswer α} {s s' : State} {v : α} :
    deliver ans s = .ok v s' ↔ ans = .ok v ∧ s' = s := by
  cases ans <;> simp [deliver, eq_comm]

/-- A step that stops does not answer `Ok`. -/
theorem result_ne_ok (w : Fault) : w.result ≠ .ok := by
  cases w <;> simp [Fault.result]

/-- A transaction that stops the step leaves the state it was delivered with, and its answer is the step's result. -/
theorem deliver_eq_stop {α : Type} {ans : BusAnswer α} {s : State} {w : Fault} (h : deliver ans s = .stop w) :
    w.left = s ∧ ans.result = w.result := by
  cases ans <;> simp [deliver, raise] at h <;> subst h <;> simp [BusAnswer.result, Fault.result]

theorem serveRead_bus (b : Bus) (a : Word) :
    (b.serveRead a).2.cells = b.cells ∧ (b.serveRead a).2.map = b.map := by
  unfold Bus.serveRead Bus.readChar
  repeat' split
  all_goals exact ⟨rfl, rfl⟩

theorem answerRead_bus (b : Bus) (a : Word) :
    (b.answerRead a).2.cells = b.cells ∧ (b.answerRead a).2.map = b.map := by
  unfold Bus.answerRead
  split
  · exact serveRead_bus b a
  · next rest _ => exact serveRead_bus { b with answers := rest } a
  all_goals exact ⟨rfl, rfl⟩

/-- What a served write does to the store: the byte at its address, or nothing. -/
theorem serveWrite_bus (b : Bus) (a : Word) (v : Byte) :
    (b.serveWrite a v).2.map = b.map ∧
      ((b.serveWrite a v).2.cells = b.cells ∨
        ((b.serveWrite a v).1 = .ok () ∧ (b.serveWrite a v).2.cells = Memory.write b.cells a.toNat v)) := by
  unfold Bus.serveWrite
  split
  · exact ⟨rfl, .inr ⟨rfl, rfl⟩⟩
  all_goals exact ⟨rfl, .inl rfl⟩

theorem answerWrite_bus (b : Bus) (a : Word) (v : Byte) :
    (b.answerWrite a v).2.map = b.map ∧
      ((b.answerWrite a v).2.cells = b.cells ∨
        ((b.answerWrite a v).1 = .ok () ∧ (b.answerWrite a v).2.cells = Memory.write b.cells a.toNat v)) := by
  unfold Bus.answerWrite
  split
  · exact serveWrite_bus b a v
  · next rest _ => exact serveWrite_bus { b with answers := rest } a v
  all_goals exact ⟨rfl, .inl rfl⟩

/-- A read answered `Ok`: one transaction, the store as before. -/
theorem busRead_ok {a : Word} {s s' : State} {v : Byte} (h : busRead a s = .ok v s') :
    After s s' [.read s.ctx a (.ok v)] ∧ s'.bus.cells = s.bus.cells := by
  obtain ⟨hv, rfl⟩ := deliver_eq_ok.1 h
  have hb := answerRead_bus s.bus a
  refine ⟨⟨rfl, rfl, hb.2, ?_, by simp [Transaction.handle], fun hw => hb.1 ▸ hw⟩, hb.1⟩
  rw [← hv]

/-- A read that stops the step: one transaction, whose answer is the step's result, the store as before. -/
theorem busRead_stop {a : Word} {s : State} {w : Fault} (h : busRead a s = .stop w) :
    ∃ ans, ans.result = w.result ∧ After s w.left [.read s.ctx a ans] ∧ w.left.bus.cells = s.bus.cells := by
  obtain ⟨hl, hne⟩ := deliver_eq_stop h
  have hb := answerRead_bus s.bus a
  rw [hl]
  exact ⟨_, hne, ⟨rfl, rfl, hb.2, rfl, by simp [Transaction.handle], fun hw => hb.1 ▸ hw⟩, hb.1⟩

theorem answerWrite_wf (b : Bus) (a : Word) (v : Byte) (hw : Memory.wf b.cells = true) :
    Memory.wf (b.answerWrite a v).2.cells = true := by
  rcases (answerWrite_bus b a v).2 with h | ⟨-, h⟩ <;> rw [h]
  · exact hw
  · exact wf_write _ a v hw

/-- A write answered `Ok`: one transaction, every other byte of the store as before. -/
theorem busWrite_ok {a : Word} {v : Byte} {s s' : State} (h : busWrite a v s = .ok () s') :
    After s s' [.write s.ctx a v (.ok ())] ∧ ∀ b : Word, b ≠ a → s'.byteAt b = s.byteAt b := by
  obtain ⟨hv, rfl⟩ := deliver_eq_ok.1 h
  have hb := answerWrite_bus s.bus a v
  refine ⟨⟨rfl, rfl, hb.1, ?_, by simp [Transaction.handle], answerWrite_wf _ a v⟩, fun b hne => ?_⟩
  · rw [← hv]
  · rcases hb.2 with hc | ⟨-, hc⟩ <;> simp only [State.byteAt, hc]
    exact read_write_other _ v fun e => hne (BitVec.eq_of_toNat_eq e.symm)

/-- A write that stops the step: one transaction, whose answer is the step's result, every byte of the store as before. -/
theorem busWrite_stop {a : Word} {v : Byte} {s : State} {w : Fault} (h : busWrite a v s = .stop w) :
    ∃ ans, ans.result = w.result ∧ After s w.left [.write s.ctx a v ans] ∧ w.left.bus.cells = s.bus.cells := by
  obtain ⟨hl, hne⟩ := deliver_eq_stop h
  have hb := answerWrite_bus s.bus a v
  rw [hl]
  refine ⟨_, hne, ⟨rfl, rfl, hb.1, rfl, by simp [Transaction.handle], answerWrite_wf _ a v⟩, ?_⟩
  rcases hb.2 with hc | ⟨ho, -⟩
  · exact hc
  · rw [ho] at hne
    exact absurd hne.symm (result_ne_ok w)

/-- A two-byte read that answers is two reads that answer, lower address first. -/
theorem memRead16_ok {a v : Word} {s s' : State} :
    memRead16 a s = .ok v s' ↔
      ∃ lo hi s1, busRead a s = .ok lo s1 ∧ busRead (a + 1) s1 = .ok hi s' ∧ ofLittleEndian lo hi = v := by
  simp only [memRead16, andThen_eq_ok, Reply.ok.injEq]
  constructor
  · rintro ⟨lo, s1, h1, hi, s2, h2, rfl, rfl⟩
    exact ⟨lo, hi, s1, h1, h2, rfl⟩
  · rintro ⟨lo, hi, s1, h1, h2, rfl⟩
    exact ⟨lo, s1, h1, hi, s', h2, rfl, rfl⟩

/-- A two-byte read stops at its first read, or at its second. -/
theorem memRead16_stop {a : Word} {s : State} {w : Fault} :
    memRead16 a s = .stop w ↔
      busRead a s = .stop w ∨ ∃ lo s1, busRead a s = .ok lo s1 ∧ busRead (a + 1) s1 = .stop w := by
  simp [memRead16, andThen_eq_stop]

/-- A two-byte write that answers is two writes that answer, lower address first. -/
theorem memWrite16_ok {a v : Word} {s s' : State} :
    memWrite16 a v s = .ok () s' ↔
      ∃ s1, busWrite a (lowByte v) s = .ok () s1 ∧ busWrite (a + 1) (highByte v) s1 = .ok () s' := by
  rw [memWrite16, andThen_eq_ok]
  exact ⟨fun ⟨_, s1, h⟩ => ⟨s1, h⟩, fun ⟨s1, h⟩ => ⟨(), s1, h⟩⟩

/-- A two-byte write stops at its first write, or at its second. -/
theorem memWrite16_stop {a v : Word} {s : State} {w : Fault} :
    memWrite16 a v s = .stop w ↔
      busWrite a (lowByte v) s = .stop w ∨
        ∃ s1, busWrite a (lowByte v) s = .ok () s1 ∧ busWrite (a + 1) (highByte v) s1 = .stop w := by
  rw [memWrite16, andThen_eq_stop]
  exact or_congr_right ⟨fun ⟨_, s1, h⟩ => ⟨s1, h⟩, fun ⟨s1, h⟩ => ⟨(), s1, h⟩⟩

/-- A read of plain memory answers the byte of the store. -/
theorem busRead_plain {s : State} {a : Word} (h : s.plainAt a) :
    busRead a s = .ok (s.byteAt a) { s with log := s.log ++ [.read s.ctx a (.ok (s.byteAt a))] } := by
  have e : s.bus.answerRead a = (.ok (s.byteAt a), s.bus) := by
    simp [Bus.answerRead, Bus.serveRead, h.1, h.2, State.byteAt]
  simp [busRead, e, deliver]

/-- A write to plain memory stores the byte. -/
theorem busWrite_plain {s : State} {a : Word} (h : s.plainAt a) (v : Byte) :
    busWrite a v s =
      .ok () { s with
        bus := { s.bus with cells := Memory.write s.bus.cells a.toNat v }
        log := s.log ++ [.write s.ctx a v (.ok ())] } := by
  have e : s.bus.answerWrite a v = (.ok (), { s.bus with cells := Memory.write s.bus.cells a.toNat v }) := by
    simp [Bus.answerWrite, Bus.serveWrite, h.1, h.2]
  simp [busWrite, e, deliver]

end Sys2Proof.Machine
end

