-- ==== Sys2Proof/Laws/Pairs.lean ====
section
/-! SUPPORT. The two-byte accesses of the handlers in the terms of Safety.lean: two reads or two writes that answer, or that
stop, what they leave, and both on plain memory. -/
namespace Sys2Proof.Machine

open Sys2Proof

theorem memRead16_of_readsPair {a : Word} {s s' : State} {lo hi : Byte} (h : readsPair a s lo hi s') :
    memRead16 a s = .ok (hi ++ lo) s' := by
  obtain ⟨s1, h1, h2⟩ := h
  exact memRead16_ok.2 ⟨lo, hi, s1, h1, h2, rfl⟩

theorem memRead16_of_readsPairStops {a : Word} {s : State} {w : Fault} (h : readsPairStops a s w) :
    memRead16 a s = .stop w := memRead16_stop.2 h

theorem memWrite16_of_writesPair {a : Word} {s s' : State} {lo hi : Byte} (h : writesPair a lo hi s s') :
    memWrite16 a (hi ++ lo) s = .ok () s' := by
  rw [memWrite16_ok, lowByte_append, highByte_append]
  exact h

theorem memWrite16_of_writesPairStops {a : Word} {s : State} {lo hi : Byte} {w : Fault}
    (h : writesPairStops a lo hi s w) : memWrite16 a (hi ++ lo) s = .stop w := by
  rw [memWrite16_stop, lowByte_append, highByte_append]
  exact h

/-- Two reads that answer leave the registers and the store as they were. -/
theorem readsPair_after {a : Word} {s s' : State} {lo hi : Byte} (h : readsPair a s lo hi s') :
    After s s' [.read s.ctx a (.ok lo), .read s.ctx (a + 1) (.ok hi)] ∧ s'.bus.cells = s.bus.cells := by
  obtain ⟨s1, h1, h2⟩ := h
  obtain ⟨a1, c1⟩ := busRead_ok h1
  obtain ⟨a2, c2⟩ := busRead_ok h2
  rw [a1.ctx] at a2
  exact ⟨a1.trans a2, c2.trans c1⟩

/-- Two reads of which one stops leave the registers as they were. -/
theorem readsPairStops_regs {a : Word} {s : State} {w : Fault} (h : readsPairStops a s w) : w.left.regs = s.regs := by
  rcases h with h | ⟨lo, s1, h1, h2⟩
  · obtain ⟨_, _, ha, _⟩ := busRead_stop h
    exact ha.regs
  · obtain ⟨_, _, ha, _⟩ := busRead_stop h2
    exact ((busRead_ok h1).1.trans ha).regs

/-- Two writes that answer leave the registers and every other byte as they were. -/
theorem writesPair_after {a : Word} {s s' : State} {lo hi : Byte} (h : writesPair a lo hi s s') :
    After s s' [.write s.ctx a lo (.ok ()), .write s.ctx (a + 1) hi (.ok ())] ∧ memoryKeptButWord a s s' := by
  obtain ⟨s1, h1, h2⟩ := h
  obtain ⟨a1, c1⟩ := busWrite_ok h1
  obtain ⟨a2, c2⟩ := busWrite_ok h2
  rw [a1.ctx] at a2
  exact ⟨a1.trans a2, fun b h h' => (c2 b h').trans (c1 b h)⟩

/-- Two writes of which one stops leave the registers as they were. -/
theorem writesPairStops_regs {a : Word} {s : State} {lo hi : Byte} {w : Fault} (h : writesPairStops a lo hi s w) :
    w.left.regs = s.regs := by
  rcases h with h | ⟨s1, h1, h2⟩
  · obtain ⟨_, _, ha, _⟩ := busWrite_stop h
    exact ha.regs
  · obtain ⟨_, _, ha, _⟩ := busWrite_stop h2
    exact ((busWrite_ok h1).1.trans ha).regs

/-- One byte of a canonical store after a write. -/
theorem read_write {m : Memory} (hw : Memory.wf m = true) (a b : Word) (v : Byte) :
    Memory.read (Memory.write m a.toNat v) b.toNat = if b = a then v else Memory.read m b.toNat := by
  by_cases h : b = a
  · rw [if_pos h, h]
    exact read_write_same _ _ _ hw
  · rw [if_neg h]
    exact read_write_other _ _ fun e => h (BitVec.eq_of_toNat_eq e.symm)

/-- Two reads of plain memory answer the bytes of the store and change only the record. -/
theorem readsPair_plain {s : State} {a : Word} (h : s.plainAt a) (h' : s.plainAt (a + 1)) :
    ∃ s2, readsPair a s (s.byteAt a) (s.byteAt (a + 1)) s2 ∧ s2.bus = s.bus ∧ s2.ctx = s.ctx ∧ s2.regs = s.regs ∧
      s2.log = s.log ++ [.read s.ctx a (.ok (s.byteAt a)), .read s.ctx (a + 1) (.ok (s.byteAt (a + 1)))] :=
  ⟨_, ⟨_, busRead_plain h, busRead_plain (s := { s with log := _ }) h'⟩, rfl, rfl, rfl, by simp [State.byteAt]⟩

/-- Two writes to plain memory store their bytes and change nothing else but the record. -/
theorem writesPair_plain {s : State} {a : Word} (lo hi : Byte) (h : s.plainAt a) (h' : s.plainAt (a + 1)) :
    ∃ s2, writesPair a lo hi s s2 ∧ s2.ctx = s.ctx ∧ s2.regs = s.regs ∧
      s2.bus = { s.bus with
        cells := Memory.write (Memory.write s.bus.cells a.toNat lo) (a + 1).toNat hi } ∧
      s2.log = s.log ++ [.write s.ctx a lo (.ok ()), .write s.ctx (a + 1) hi (.ok ())] := by
  let s1 : State := { s with
    bus := { s.bus with cells := Memory.write s.bus.cells a.toNat lo }
    log := s.log ++ [.write s.ctx a lo (.ok ())] }
  exact ⟨_, ⟨s1, busWrite_plain h lo, busWrite_plain (s := s1) h' hi⟩, rfl, rfl, rfl, by simp [s1]⟩

/-- Each byte of a canonical store after two writes. -/
theorem read_write_write {m : Memory} (hw : Memory.wf m = true) (a b : Word) (lo hi : Byte) :
    Memory.read (Memory.write (Memory.write m a.toNat lo) (a + 1).toNat hi) b.toNat =
      if b = a then lo else if b = a + 1 then hi else Memory.read m b.toNat := by
  rw [read_write (wf_write _ _ _ hw), read_write hw]
  by_cases e : b = a
  · subst e
    simp
  · simp [e]

end Sys2Proof.Machine
end

