-- ==== Sys2Proof/Laws/PerInstr.lean ====
section
/-! SUPPORT. A fact about every instruction as syntax, one lemma for each constructor: its word belongs to the row of the
opcode table that its mnemonic names. -/
namespace Sys2Proof.Laws.EncodesRow

open Sys2Proof

/-- The word of a well-formed instruction belongs to a row of the table, and that row has its mnemonic and its length. -/
def Statement (i : Instr) : Prop :=
  i.wellFormed = true →
    ∃ row ∈ opcodeTable, row.mnemonic = i.mnemonic ∧ row.length = i.length ∧ row.covers (encode i) = true

/-- The row at a place of the table settles the statement. -/
theorem of_row (i : Instr) (n : Nat) (row : OpcodeRow) (hr : opcodeTable[n]? = some row)
    (hm : row.mnemonic = i.mnemonic) (hl : row.length = i.length)
    (hc : i.wellFormed = true → row.covers (encode i) = true) : Statement i := fun h =>
  ⟨row, List.mem_of_getElem? hr, hm, hl, hc h⟩

theorem jmp (r : Reg) : Statement (.jmp r) :=
  of_row _ 0 _ rfl rfl rfl (by revert r; decide)
theorem gm (r : Reg) : Statement (.gm r) :=
  of_row _ 1 _ rfl rfl rfl (by revert r; decide)
theorem sm (r : Reg) : Statement (.sm r) :=
  of_row _ 2 _ rfl rfl rfl (by revert r; decide)
theorem orImm (ra : Reg) (imm8 : Byte) : Statement (.orImm ra imm8) :=
  of_row _ 3 ⟨"OR", 0x4000, 0xF000, 2⟩ rfl rfl rfl fun _ => by
    have hm : (0xF000 : Word) = wordOfNibbles 0xF 0 0 0 := rfl
    rw [OpcodeRow.covers, encode, hm, wordOfNibbles_and]
    simp only [show ∀ x : Nibble, x &&& 0 = 0 from by decide]
    rfl
theorem orr (ra rb : Reg) : Statement (.orr ra rb) :=
  of_row _ 4 _ rfl rfl rfl (by revert ra rb; decide)
theorem and (ra rb : Reg) : Statement (.and ra rb) :=
  of_row _ 5 _ rfl rfl rfl (by revert ra rb; decide)
theorem xor (ra rb : Reg) : Statement (.xor ra rb) :=
  of_row _ 6 _ rfl rfl rfl (by revert ra rb; decide)
theorem not (r : Reg) : Statement (.not r) :=
  of_row _ 7 _ rfl rfl rfl (by revert r; decide)
theorem shl (ra rb : Reg) : Statement (.shl ra rb) :=
  of_row _ 8 _ rfl rfl rfl (by revert ra rb; decide)
theorem shr (ra rb : Reg) : Statement (.shr ra rb) :=
  of_row _ 9 _ rfl rfl rfl (by revert ra rb; decide)
theorem add (ra rb : Reg) : Statement (.add ra rb) :=
  of_row _ 10 _ rfl rfl rfl (by revert ra rb; decide)
theorem sub (ra rb : Reg) : Statement (.sub ra rb) :=
  of_row _ 11 _ rfl rfl rfl (by revert ra rb; decide)
theorem mul (ra rb : Reg) : Statement (.mul ra rb) :=
  of_row _ 12 _ rfl rfl rfl (by revert ra rb; decide)
theorem div (ra rb : Reg) : Statement (.div ra rb) :=
  of_row _ 13 _ rfl rfl rfl (by revert ra rb; decide)
theorem mod (ra rb : Reg) : Statement (.mod ra rb) :=
  of_row _ 14 _ rfl rfl rfl (by revert ra rb; decide)
theorem nop : Statement .nop :=
  of_row _ 15 _ rfl rfl rfl (by decide)
theorem cmpEq (ra rb : Reg) : Statement (.cmpEq ra rb) :=
  of_row _ 16 _ rfl rfl rfl (by revert ra rb; decide)
theorem cmpGt (ra rb : Reg) : Statement (.cmpGt ra rb) :=
  of_row _ 17 _ rfl rfl rfl (by revert ra rb; decide)
theorem cmpLt (ra rb : Reg) : Statement (.cmpLt ra rb) :=
  of_row _ 18 _ rfl rfl rfl (by revert ra rb; decide)
theorem loadImm (r : Reg) : Statement (.loadImm r) :=
  of_row _ 19 _ rfl rfl rfl (by revert r; decide)
theorem jmpImm : Statement .jmpImm :=
  of_row _ 20 _ rfl rfl rfl (by decide)
theorem copy (ra rb : Reg) : Statement (.copy ra rb) :=
  of_row _ 21 _ rfl rfl rfl (by revert ra rb; decide)
theorem swap (ra rb : Reg) : Statement (.swap ra rb) :=
  of_row _ 22 _ rfl rfl rfl (by revert ra rb; decide)
theorem ujmp : Statement .ujmp :=
  of_row _ 23 _ rfl rfl rfl (by decide)
theorem reservedExtAB (n : Nibble) : Statement (.reservedExtAB n) :=
  of_row _ 24 _ rfl rfl rfl (by revert n; decide)
theorem reservedExtCF (n : Nibble) : Statement (.reservedExtCF n) :=
  of_row _ 25 _ rfl rfl rfl (by revert n; decide)
theorem pushImm : Statement .pushImm :=
  of_row _ 26 _ rfl rfl rfl (by decide)
theorem pushReg (r : Reg) : Statement (.pushReg r) :=
  of_row _ 27 _ rfl rfl rfl (by revert r; decide)
theorem popReg (r : Reg) : Statement (.popReg r) :=
  of_row _ 28 _ rfl rfl rfl (by revert r; decide)
theorem callAddr : Statement .callAddr :=
  of_row _ 29 _ rfl rfl rfl (by decide)
theorem callReg (r : Reg) : Statement (.callReg r) :=
  of_row _ 30 _ rfl rfl rfl (by revert r; decide)
theorem ret : Statement .ret :=
  of_row _ 31 _ rfl rfl rfl (by decide)
theorem storeAddr (r : Reg) : Statement (.storeAddr r) :=
  of_row _ 32 _ rfl rfl rfl (by revert r; decide)
theorem loadAddr (r : Reg) : Statement (.loadAddr r) :=
  of_row _ 33 _ rfl rfl rfl (by revert r; decide)
theorem reservedStack8F (n : Nibble) : Statement (.reservedStack8F n) :=
  of_row _ 34 _ rfl rfl rfl (by revert n; decide)

end Sys2Proof.Laws.EncodesRow
end

