-- ==== Sys2Proof/Laws/Runs.lean ====
section
/-! SUPPORT. How many transactions an operation makes, and that it makes the next one only after `Ok`: one lemma for a
transaction, one for sequencing, and the two-byte accesses from them. -/
namespace Sys2Proof.Machine

open Sys2Proof

/-- An operation started in `s` makes at most `n` transactions. If it answers, all of them were answered `Ok`; if it stops,
all but the last were, and the last one's answer is the step's result. -/
structure Runs {α : Type} (r : Reply α) (s : State) (n : Nat) : Prop where
  ok : ∀ v s', r = .ok v s' →
    ∃ ts, After s s' ts ∧ (∀ x ∈ ts, x.succeeded = true) ∧ ts.length ≤ n
  stop : ∀ w, r = .stop w →
    ∃ ts x, After s w.left (ts ++ [x]) ∧ (∀ y ∈ ts, y.succeeded = true) ∧ x.result = w.result ∧ ts.length < n

/-- A transaction whose answer ends a step was not answered `Ok`. -/
theorem succeeded_of_result {x : Transaction} {w : Fault} (h : x.result = w.result) : x.succeeded = false := by
  simp [Transaction.succeeded, h, result_ne_ok]

theorem runs_busRead (a : Word) (s : State) : Runs (busRead a s) s 1 where
  ok v s' h := ⟨_, (busRead_ok h).1, by simp [Transaction.succeeded, Transaction.result, BusAnswer.result], by simp⟩
  stop w h := by
    obtain ⟨ans, hr, ha, -⟩ := busRead_stop h
    exact ⟨[], _, ha, by simp, hr, by simp⟩

theorem runs_busWrite (a : Word) (v : Byte) (s : State) : Runs (busWrite a v s) s 1 where
  ok u s' h := ⟨_, (busWrite_ok (s' := s') h).1,
    by simp [Transaction.succeeded, Transaction.result, BusAnswer.result], by simp⟩
  stop w h := by
    obtain ⟨ans, hr, ha, -⟩ := busWrite_stop h
    exact ⟨[], _, ha, by simp, hr, by simp⟩

/-- A value that needs no transaction. -/
theorem runs_pure {α : Type} (v : α) (s : State) : Runs (.ok v s) s 0 where
  ok u s' h := by
    cases h
    exact ⟨[], ⟨rfl, rfl, rfl, by simp, by simp, id⟩, by simp, by simp⟩
  stop w h := by cases h

/-- In a sequence the transactions add up. -/
theorem Runs.andThen {α β : Type} {r : Reply α} {f : α → State → Reply β} {s : State} {n m : Nat} (hr : Runs r s n)
    (hf : ∀ v s', r = .ok v s' → Runs (f v s') s' m) : Runs (r.andThen f) s (n + m) where
  ok v s' h := by
    obtain ⟨a, s1, h1, h2⟩ := andThen_eq_ok.1 h
    obtain ⟨ts, ha, hts, hn⟩ := hr.ok a s1 h1
    obtain ⟨us, hb, hus, hm⟩ := (hf a s1 h1).ok v s' h2
    refine ⟨ts ++ us, ha.trans hb, fun x hx => ?_, by rw [List.length_append]; omega⟩
    rcases List.mem_append.1 hx with hx | hx
    · exact hts x hx
    · exact hus x hx
  stop w h := by
    rcases andThen_eq_stop.1 h with h | ⟨a, s1, h1, h2⟩
    · obtain ⟨ts, x, ha, hts, hx, hn⟩ := hr.stop w h
      exact ⟨ts, x, ha, hts, hx, by omega⟩
    · obtain ⟨ts, ha, hts, hn⟩ := hr.ok a s1 h1
      obtain ⟨us, x, hb, hus, hx, hm⟩ := (hf a s1 h1).stop w h2
      refine ⟨ts ++ us, x, ?_, fun y hy => ?_, hx, by rw [List.length_append]; omega⟩
      · rw [List.append_assoc]
        exact ha.trans hb
      · rcases List.mem_append.1 hy with hy | hy
        · exact hts y hy
        · exact hus y hy

theorem runs_memRead16 (a : Word) (s : State) : Runs (memRead16 a s) s 2 :=
  (runs_busRead a s).andThen fun _ s1 _ => ((runs_busRead (a + 1) s1).andThen fun _ s2 _ => runs_pure _ s2)

theorem runs_memWrite16 (a v : Word) (s : State) : Runs (memWrite16 a v s) s 2 :=
  (runs_busWrite a _ s).andThen fun _ s1 _ => runs_busWrite (a + 1) _ s1

end Sys2Proof.Machine
end

