-- ==== Sys2Proof/Laws/Step.lean ====
section
/-! SUPPORT. What a fetch and a step can do, said once. -/
namespace Sys2Proof.Machine

open Sys2Proof

/-- A fetch answers exactly when pc is not the sentinel and both reads answer; it decodes their bytes and advances pc. -/
theorem fetchInstr_ok {s s' : State} {i : Instr} :
    fetchInstr s = .ok i s' ↔
      s.pc ≠ Config.fetchSentinel ∧
        ∃ b0 b1 s1 s2, busRead s.pc s = .ok b0 s1 ∧ busRead (s.pc + 1) s1 = .ok b1 s2 ∧
          decodeWord (wordOf b0 b1) = i ∧ s2.advance = s' := by
  unfold fetchInstr State.halted
  by_cases h : s.pc = Config.fetchSentinel
  · simp [h]
  · simp only [beq_iff_eq, h, if_false, fetchWord, andThen_eq_ok, Reply.ok.injEq, ne_eq, not_false_eq_true,
      true_and]
    constructor
    · rintro ⟨w, s2, ⟨b0, s1, h1, b1, s3, h2, rfl, rfl⟩, rfl, rfl⟩
      exact ⟨b0, b1, s1, s3, h1, h2, rfl, rfl⟩
    · rintro ⟨b0, b1, s1, s2, h1, h2, rfl, rfl⟩
      exact ⟨_, s2, ⟨b0, s1, h1, b1, s2, h2, rfl, rfl⟩, rfl, rfl⟩

/-- A fetch stops at the sentinel, at its first read, or at its second. -/
theorem fetchInstr_stop {s : State} {w : Fault} :
    fetchInstr s = .stop w ↔
      (s.pc = Config.fetchSentinel ∧ raise .instructionInvalid s = w) ∨
        (s.pc ≠ Config.fetchSentinel ∧
          (busRead s.pc s = .stop w ∨
            ∃ b0 s1, busRead s.pc s = .ok b0 s1 ∧ busRead (s.pc + 1) s1 = .stop w)) := by
  unfold fetchInstr State.halted
  by_cases h : s.pc = Config.fetchSentinel <;> simp [h, fetchWord, andThen_eq_stop]

/-- A step that answers is a fetch that answers and the handler of the instruction it decoded. -/
theorem step_eq_next {s t : State} :
    step s = .next t ↔ ∃ i s1, fetchInstr s = .ok i s1 ∧ exec i s1 = .next t := finish_eq_next

/-- A step that stops stops at its fetch, or in the handler of the instruction it decoded. -/
theorem step_eq_fault {s : State} {w : Fault} :
    step s = .fault w ↔ fetchInstr s = .stop w ∨ ∃ i s1, fetchInstr s = .ok i s1 ∧ exec i s1 = .fault w :=
  finish_eq_fault

end Sys2Proof.Machine
end

