-- ==== Sys2Proof/Tests/Slice0.lean ====
section
/-! SUPPORT. The model's own tests. Expected results are those of the spec's 95_test_vectors.md, named E<n> for its worked
examples and P6 for its program, and otherwise by the row of its section 2; the words of the decoding tests are written out
from the formats of 30_encoding.md. The last part gives, for every statement with hypotheses, states and operands that meet
them. -/
namespace Sys2Proof.Tests

open Sys2Proof Sys2Proof.Machine

/-! ## WellFormed refuses each ill-formed term -/

theorem test_wellFormed_refuses_ext_ab_below : (Instr.reservedExtAB 0x9).wellFormed = false := by decide
theorem test_wellFormed_refuses_ext_ab_above : (Instr.reservedExtAB 0xC).wellFormed = false := by decide
theorem test_wellFormed_refuses_ext_cf_below : (Instr.reservedExtCF 0xB).wellFormed = false := by decide
theorem test_wellFormed_refuses_stack_below : (Instr.reservedStack8F 0x7).wellFormed = false := by decide

/-! ## Decoding: words of the spec -/

theorem test_decode_primary_control :
    decodeWord 0x1500 = .jmp 5 ∧ decodeWord 0x2F00 = .gm 15 ∧ decodeWord 0x3300 = .sm 3 := by decide
theorem test_decode_alu_logic :
    decodeWord 0x430F = .orImm 3 0x0F ∧ decodeWord 0x5340 = .orr 3 4 ∧ decodeWord 0x6340 = .and 3 4 ∧
    decodeWord 0x7FF0 = .xor 15 15 ∧ decodeWord 0x8300 = .not 3 := by decide
theorem test_decode_alu_arithmetic :
    decodeWord 0x9340 = .shl 3 4 ∧ decodeWord 0xA340 = .shr 3 4 ∧ decodeWord 0xBF40 = .add 15 4 ∧
    decodeWord 0xC340 = .sub 3 4 ∧ decodeWord 0xD340 = .mul 3 4 ∧ decodeWord 0xE340 = .div 3 4 ∧
    decodeWord 0xF340 = .mod 3 4 := by decide
theorem test_decode_extended :
    decodeWord 0x0000 = .nop ∧ decodeWord 0x0124 = .cmpEq 2 4 ∧ decodeWord 0x0234 = .cmpGt 3 4 ∧
    decodeWord 0x0334 = .cmpLt 3 4 ∧ decodeWord 0x04F0 = .loadImm 15 ∧ decodeWord 0x0500 = .jmpImm ∧
    decodeWord 0x063F = .copy 3 15 ∧ decodeWord 0x07F4 = .swap 15 4 ∧ decodeWord 0x0800 = .ujmp := by decide
theorem test_decode_reserved_extended :
    decodeWord 0x0A00 = .reservedExtAB 0xA ∧ decodeWord 0x0BFF = .reservedExtAB 0xB ∧
    decodeWord 0x0C00 = .reservedExtCF 0xC ∧ decodeWord 0x0FFF = .reservedExtCF 0xF := by decide
theorem test_decode_stack :
    decodeWord 0x0900 = .pushImm ∧ decodeWord 0x0916 = .pushReg 6 ∧ decodeWord 0x092D = .popReg 13 ∧
    decodeWord 0x0930 = .callAddr ∧ decodeWord 0x0945 = .callReg 5 ∧ decodeWord 0x0950 = .ret ∧
    decodeWord 0x0964 = .storeAddr 4 ∧ decodeWord 0x0973 = .loadAddr 3 ∧
    decodeWord 0x0980 = .reservedStack8F 0x8 ∧ decodeWord 0x09FF = .reservedStack8F 0xF := by decide

/-- R71: bits an instruction does not read are free. -/
theorem test_decode_ignores_unread_bits :
    decodeWord 0x15FF = .jmp 5 ∧ decodeWord 0x534F = .orr 3 4 ∧ decodeWord 0x00FF = .nop ∧
    decodeWord 0x095F = .ret := by decide

/-- The formats of R65 on words written bit by bit: opcode, regA, regB, rrB. -/
theorem test_decode_bits :
    decodeWord 0b1011_0011_0100_0000 = .add 3 4 ∧ decodeWord 0b0100_0001_1111_1111 = .orImm 1 0xFF ∧
    decodeWord 0b0000_1001_0010_0110 = .popReg 6 ∧ decodeWord 0b0000_0110_0011_1111 = .copy 3 15 := by decide

/-- The bytes `04 30 05 00` of E6, and a lone byte. -/
theorem test_decode_bytes :
    decodeBytes [0x04, 0x30, 0x05, 0x00] = .ok (.loadImm 3, [0x05, 0x00]) ∧
    decodeBytes [0x04] = .error .truncated := by decide
theorem test_encode_bytes : encodeBytes (.loadImm 3) 0x0005 = [0x04, 0x30, 0x05, 0x00] := by decide
theorem test_decodeTableWord :
    decodeTableWord 16 0xB340 = some (.add 3 4) ∧ decodeTableWord 32 0x00050430 = some (.loadImm 3) ∧
    decodeTableWord 16 0xFFFF09F0 = some (.reservedStack8F 0xF) := by decide

/-! ## One step each -/

/-- Code at 0x0100, pc there unless `regs` says otherwise, every other register 0, `data` over the code, a bus that rejects
the addresses of `bad`. -/
def start (regs : List (Reg × Word)) (code : List Byte) (data : List (Word × Byte) := []) (bad : List Nat := []) :
    State :=
  let rs := regs.foldl (fun v p => v.set p.1 p.2) ((Vector.replicate 16 (0 : Word)).set 15 0x0100)
  let code' := storeBytes code rs[15] []
  State.construct rs
    { Bus.plain with
      cells := data.foldl (fun m p => Memory.write m p.1.toNat p.2) code'
      map := bad.map fun a => { first := a, last := a, port := .rejects .addressInvalid } } 0

/-- The result of one step, one register and pc after it. -/
def one (s : State) (r : Reg) : StepResult × Word × Word :=
  ((stepCall s).1, (stepCall s).2.reg r, (stepCall s).2.pc)

/-- The result of one step, sp, pc and the word of memory at an address after it. -/
def mem (s : State) (a : Word) : StepResult × Word × Word × Word :=
  ((stepCall s).1, (stepCall s).2.sp, (stepCall s).2.pc, (stepCall s).2.wordAt a)

theorem test_sentinel : one (start [(15, 0xFFFF)] [0x00, 0x00]) 0 = (.err .instructionInvalid, 0, 0xFFFF) := by decide
theorem test_step_wraps_pc : one (start [(15, 0xFFFE)] [0x00, 0x00]) 0 = (.ok, 0, 0x0000) := by decide
theorem test_fetch_second_byte_rejected : one (start [] [0x00, 0x00] [] [0x0101]) 0 = (.err .addressInvalid, 0, 0x0100) := by decide
theorem test_jmp_taken : one (start [(5, 0x0200)] [0x15, 0x00]) 5 = (.ok, 0x0200, 0x0200) := by decide
theorem test_jmp_not_taken : one (start [(2, 7), (5, 0x0200)] [0x15, 0x00]) 5 = (.ok, 0x0200, 0x0102) := by decide
theorem test_gm_zero_extends : one (start [(1, 0x0400), (3, 0x1111)] [0x23, 0x00] [(0x0400, 0xAB)]) 3 = (.ok, 0x00AB, 0x0102) := by decide
theorem test_gm_rejected : one (start [(1, 0x0400), (3, 0x1111)] [0x23, 0x00] [] [0x0400]) 3 = (.err .addressInvalid, 0x1111, 0x0102) := by decide
theorem test_sm_low_byte :
    mem (start [(1, 0x0400), (3, 0x12AB)] [0x33, 0x00]) 0x0400 = (.ok, 0, 0x0102, 0x00AB) := by decide
theorem test_sm_pc :
    mem (start [(1, 0x0400)] [0x3F, 0x00]) 0x0400 = (.ok, 0, 0x0102, 0x0002) := by decide
theorem test_or_masks_E9 : one (start [] [0x41, 0xFF]) 1 = (.ok, 0x00FF, 0x0102) := by decide
theorem test_or_keeps_high_byte : one (start [(3, 0xAB00)] [0x43, 0x0F]) 3 = (.ok, 0xAB0F, 0x0102) := by decide
theorem test_orr : one (start [(3, 0x0F00), (4, 0x00F0)] [0x53, 0x40]) 3 = (.ok, 0x0FF0, 0x0102) := by decide
theorem test_and : one (start [(3, 0x1234), (4, 0x00FF)] [0x63, 0x40]) 3 = (.ok, 0x0034, 0x0102) := by decide
theorem test_xor : one (start [(3, 0xFF00), (4, 0x0FF0)] [0x73, 0x40]) 3 = (.ok, 0xF0F0, 0x0102) := by decide
theorem test_xor_pc : one (start [] [0x7F, 0xF0]) 15 = (.ok, 0x0000, 0x0000) := by decide
theorem test_not : one (start [(3, 0x00FF)] [0x83, 0x00]) 3 = (.ok, 0xFF00, 0x0102) := by decide
theorem test_not_pc : one (start [] [0x8F, 0x00]) 15 = (.ok, 0xFEFD, 0xFEFD) := by decide
theorem test_shl_fifteen : one (start [(3, 0x0001), (4, 0x000F)] [0x93, 0x40]) 3 = (.ok, 0x8000, 0x0102) := by decide
theorem test_shl_count_modulo_16 : one (start [(3, 0x0001), (4, 0x0014)] [0x93, 0x40]) 3 = (.ok, 0x0010, 0x0102) := by decide
theorem test_shr_logical : one (start [(3, 0x8000), (4, 0x0004)] [0xA3, 0x40]) 3 = (.ok, 0x0800, 0x0102) := by decide
theorem test_shr_count_16 : one (start [(3, 0x8000), (4, 0x0010)] [0xA3, 0x40]) 3 = (.ok, 0x8000, 0x0102) := by decide
theorem test_add_wraps_E1 : one (start [(3, 0xFFFF), (4, 0x0001)] [0xB3, 0x40]) 3 = (.ok, 0x0000, 0x0102) := by decide
theorem test_add_pc : one (start [(4, 0x0010)] [0xBF, 0x40]) 4 = (.ok, 0x0010, 0x0112) := by decide
theorem test_sub_wraps : one (start [(4, 0x0001)] [0xC3, 0x40]) 3 = (.ok, 0xFFFF, 0x0102) := by decide
theorem test_mul_wraps : one (start [(3, 0xFFFF), (4, 0xFFFF)] [0xD3, 0x40]) 3 = (.ok, 0x0001, 0x0102) := by decide
theorem test_div_unsigned : one (start [(3, 0xFFFF), (4, 0x0002)] [0xE3, 0x40]) 3 = (.ok, 0x7FFF, 0x0102) := by decide
theorem test_div_zero_E8 : one (start [(3, 0x0064)] [0xE3, 0x40]) 3 = (.err .arithmeticFault, 0x0064, 0x0102) := by decide
theorem test_mod : one (start [(3, 0x0064), (4, 0x0007)] [0xF3, 0x40]) 3 = (.ok, 0x0002, 0x0102) := by decide
theorem test_mod_zero : one (start [(3, 0x0064)] [0xF3, 0x40]) 3 = (.err .arithmeticFault, 0x0064, 0x0102) := by decide
theorem test_nop : one (start [(3, 0x1234)] [0x00, 0x00]) 3 = (.ok, 0x1234, 0x0102) := by decide
theorem test_cmp_eq_E4 : one (start [(2, 9), (3, 1)] [0x01, 0x33]) 2 = (.ok, 0, 0x0102) := by decide
theorem test_cmp_eq_false : one (start [(3, 5), (4, 6)] [0x01, 0x34]) 2 = (.ok, 1, 0x0102) := by decide
theorem test_cmp_gt_unsigned : one (start [(2, 1), (3, 0x8000), (4, 1)] [0x02, 0x34]) 2 = (.ok, 0, 0x0102) := by decide
theorem test_cmp_gt_equal : one (start [(3, 5), (4, 5)] [0x02, 0x34]) 2 = (.ok, 1, 0x0102) := by decide
theorem test_cmp_lt : one (start [(2, 1), (3, 3), (4, 4)] [0x03, 0x34]) 2 = (.ok, 0, 0x0102) := by decide
theorem test_cmp_lt_unsigned : one (start [(3, 0xFFFF)] [0x03, 0x34]) 2 = (.ok, 1, 0x0102) := by decide
theorem test_load_imm_E6 : one (start [] [0x04, 0x30, 0x05, 0x00]) 3 = (.ok, 0x0005, 0x0104) := by decide
theorem test_load_imm_pc : one (start [] [0x04, 0xF0, 0x00, 0x20]) 15 = (.ok, 0x2002, 0x2002) := by decide
theorem test_jmp_imm_taken : one (start [] [0x05, 0x00, 0x00, 0x02]) 2 = (.ok, 0, 0x0200) := by decide
theorem test_jmp_imm_untaken_reads : one (start [(2, 1)] [0x05, 0x00, 0x00, 0x02] [] [0x0102]) 2 = (.err .addressInvalid, 1, 0x0102) := by decide
theorem test_copy_pc : one (start [] [0x06, 0x3F]) 3 = (.ok, 0x0102, 0x0102) := by decide
theorem test_copy : one (start [(4, 0x0300)] [0x06, 0xF4]) 4 = (.ok, 0x0300, 0x0300) := by decide
theorem test_swap : one (start [(3, 1), (4, 2)] [0x07, 0x34]) 3 = (.ok, 2, 0x0102) := by decide
theorem test_swap_pc : one (start [(4, 0x0300)] [0x07, 0xF4]) 4 = (.ok, 0x0102, 0x0300) := by decide
theorem test_ujmp : one (start [] [0x08, 0x00, 0x34, 0x12]) 0 = (.ok, 0, 0x1234) := by decide
theorem test_reserved_ext_ab : one (start [] [0x0A, 0x00]) 0 = (.ok, 0, 0x0102) := by decide
theorem test_reserved_ext_cf : one (start [] [0x0F, 0xFF]) 15 = (.ok, 0x0102, 0x0102) := by decide
theorem test_push_imm_wraps :
    mem (start [(13, 0xFFFF)] [0x09, 0x00, 0x34, 0x12]) 0xFFFF = (.ok, 0x0001, 0x0104, 0x1234) := by decide
theorem test_push_imm_partial_P6 :
    mem (start [(13, 0x7FFF)] [0x09, 0x00, 0xEF, 0xBE] [] [0x8000]) 0x7FFF = (.err .addressInvalid, 0x7FFF, 0x0102, 0x00EF) := by decide
theorem test_push_reg :
    mem (start [(6, 0xBEEF), (13, 0x8000)] [0x09, 0x16]) 0x8000 = (.ok, 0x8002, 0x0102, 0xBEEF) := by decide
theorem test_push_sp :
    mem (start [(13, 0x8000)] [0x09, 0x1D]) 0x8000 = (.ok, 0x8002, 0x0102, 0x8000) := by decide
theorem test_pop_reg_wraps : one (start [] [0x09, 0x26] [(0xFFFE, 0xCD), (0xFFFF, 0xAB)]) 6 = (.ok, 0xABCD, 0x0102) := by decide
theorem test_pop_sp : one (start [(13, 0x8002)] [0x09, 0x2D] [(0x8000, 0x34), (0x8001, 0x12)]) 13 = (.ok, 0x1234, 0x0102) := by decide
theorem test_call_addr_E10 :
    mem (start [(13, 0x8000)] [0x09, 0x30, 0x00, 0x02]) 0x8000 = (.ok, 0x8002, 0x0200, 0x0104) := by decide
theorem test_call_addr_over_its_operand :
    mem (start [(13, 0x0102)] [0x09, 0x30, 0x00, 0x02]) 0x0102 = (.ok, 0x0104, 0x0104, 0x0104) := by decide
theorem test_call_reg_E10 :
    mem (start [(5, 0x0300), (13, 0x8000)] [0x09, 0x45]) 0x8000 = (.ok, 0x8002, 0x0300, 0x0102) := by decide
theorem test_call_sp :
    mem (start [(13, 0x8000)] [0x09, 0x4D]) 0x8000 = (.ok, 0x8002, 0x8000, 0x0102) := by decide
theorem test_ret : one (start [(13, 0x8002)] [0x09, 0x50] [(0x8000, 0x04), (0x8001, 0x01)]) 13 = (.ok, 0x8000, 0x0104) := by decide
theorem test_ret_wraps : one (start [(13, 0x0001)] [0x09, 0x50] [(0x0000, 0x02), (0xFFFF, 0x00)]) 13 = (.ok, 0xFFFF, 0x0200) := by decide
theorem test_store_addr_wraps :
    mem (start [(4, 0xCAFE)] [0x09, 0x64, 0xFF, 0xFF]) 0xFFFF = (.ok, 0, 0x0104, 0xCAFE) := by decide
theorem test_store_addr_partial :
    mem (start [(4, 0xCAFE)] [0x09, 0x64, 0x00, 0x50] [] [0x5001]) 0x5000 = (.err .addressInvalid, 0, 0x0102, 0x00FE) := by decide
theorem test_load_addr : one (start [] [0x09, 0x73, 0x00, 0x50] [(0x5000, 0xFE), (0x5001, 0xCA)]) 3 = (.ok, 0xCAFE, 0x0104) := by decide
theorem test_load_addr_pc : one (start [] [0x09, 0x7F, 0x00, 0x50] [(0x5001, 0x30)]) 15 = (.ok, 0x3002, 0x3002) := by decide
theorem test_reserved_stack : one (start [(13, 0x8000)] [0x09, 0xF0]) 13 = (.ok, 0x8000, 0x0102) := by decide

/-! ## Reset, the harness, and an instruction placed at reset -/

theorem test_reset_steps : one State.reset 15 = (.ok, 0x0005, 0x0005) := by decide
theorem test_placed_at_reset : one (State.reset.withFetchWord 32 0x12340430) 3 = (.ok, 0x1234, 0x0007) := by decide
theorem test_reset_memory_is_canonical : Memory.wf State.reset.bus.cells = true := by decide

/-- The core on the harness with a ROM, an input and an end-of-input byte or none. -/
def onHarness (regs : List (Reg × Word)) (rom : List Byte) (input : List Byte) (eof : Option Byte := none) : State :=
  State.construct (regs.foldl (fun v p => v.set p.1 p.2) ((Vector.replicate 16 (0 : Word)).set 15 3))
    (harnessBus rom false [] input eof) 0

/-- R231, D20: SM to address 0 ends the run. -/
theorem test_harness_exit : one (onHarness [] [0x30, 0x00] []) 0 = (.runEnded, 0, 0x0005) := by decide
/-- R232: GM from address 1 reads a character; with none left it never ends (D21). -/
theorem test_harness_input :
    one (onHarness [(1, 1)] [0x20, 0x00] [0x41]) 0 = (.ok, 0x0041, 0x0005) ∧
    one (onHarness [(1, 1)] [0x20, 0x00] []) 0 = (.unfinished, 0, 0x0005) := by decide
/-- R233: SM to address 2 emits a character. -/
theorem test_harness_output :
    (stepCall (onHarness [(0, 0x4121), (1, 2)] [0x30, 0x00] [])).2.bus.output = [0x21] := by decide

/-! ## The hypotheses of the statements can be met -/

/-- pc at the last address, so that an operand lies at 0xFFFF and 0x0000; ix and sp there too. -/
def top : State := start [(1, 0xFFFF), (3, 0x12AB), (13, 0xFFFF), (15, 0xFFFF)] [0x34, 0x12]

/-- A plain bus with pc, ix and sp at different places, and the word 0x5000 at pc. -/
def low : State := start [(1, 0x0400), (3, 0x12AB), (4, 7), (13, 0x8002)] [0x00, 0x50]

/-- The bus rejects the second byte of the operand at pc, of the stack slot at sp and of the entry below it, and the byte at
ix. -/
def second : State :=
  start [(1, 0x8003), (3, 0x12AB), (13, 0x8002)] [0x00, 0x50] [] [0x0101, 0x8003, 0x8001]

/-- The bus rejects the first byte of each of them. -/
def first : State := start [(1, 0x8002), (3, 0x12AB), (13, 0x8002)] [0x00, 0x50] [] [0x0100, 0x8002, 0x8000]

/-- The bus rejects the second byte of the stack slot and of the word the operand names, not the operand. -/
def later : State := start [(3, 0x12AB), (13, 0x8002)] [0x00, 0x50] [] [0x8003, 0x5001]

/-- The bus rejects the operand only. -/
def operand : State := start [(3, 0x12AB), (13, 0x8002)] [0x00, 0x50] [] [0x0101]

theorem witness_DecodeOfEncodeIsTheInstruction :
    ([.add 3 15, .orImm 0 0xFF, .reservedExtAB 0xA, .reservedExtAB 0xB, .reservedExtCF 0xC, .reservedExtCF 0xF,
      .reservedStack8F 0x8, .reservedStack8F 0xF] : List Instr).all Instr.wellFormed = true := by decide
theorem witness_OpcodeMapSelectsTheHandler :
    (0xB#4 = 0xA ∨ 0xB#4 = 0xB) ∧ (0xF#4 = 0xC ∨ 0xF#4 = 0xD ∨ 0xF#4 = 0xE ∨ 0xF#4 = 0xF) ∧ 0x8#4 ≤ 0x8#4 ∧
    0x8#4 ≤ 0xF#4 := by decide
theorem witness_NopAndReservedWordsChangeNothing :
    (0xA#4 = 0xA ∨ 0xA#4 = 0xB) ∧ 0xC#4 ≤ 0xC#4 ∧ 0xC#4 ≤ 0xF#4 ∧ 0x8#4 ≤ 0x8#4 := by decide
theorem witness_StepRunsTheDecodedInstruction :
    (start [(15, 0xFFFE)] [0xB3, 0x40]).pc ≠ 0xFFFF ∧
    ∃ s2, readsPair (start [(15, 0xFFFE)] [0xB3, 0x40]).pc (start [(15, 0xFFFE)] [0xB3, 0x40]) 0xB3 0x40 s2 :=
  ⟨by decide, _, _, rfl, rfl⟩
theorem witness_SentinelStepChangesNothing : top.pc = 0xFFFF := by decide
theorem witness_FetchFailureChangesNoRegister :
    first.pc ≠ 0xFFFF ∧ second.pc ≠ 0xFFFF ∧ (∃ f, readsPairStops first.pc first f ∧ busRead first.pc first = .stop f) ∧
    ∃ f, readsPairStops second.pc second f :=
  ⟨by decide, by decide, ⟨_, .inl rfl, rfl⟩, _, .inr ⟨_, _, rfl, rfl⟩⟩
theorem witness_StoppedHandlerKeepsTheRegisters :
    (∃ f, exec (.div 3 2) low = .fault f) ∧ (∃ f, exec (.mod 3 2) low = .fault f) ∧
    (∃ f, exec (.gm 3) second = .fault f) ∧ ∃ f, exec .pushImm later = .fault f :=
  ⟨⟨_, rfl⟩, ⟨_, rfl⟩, ⟨_, rfl⟩, _, rfl⟩
theorem witness_PlainMemoryStepsFailOnlyAsStated : low.plain ∧ top.plain ∧ (start [] [0xE3, 0x40]).plain :=
  ⟨⟨rfl, rfl⟩, ⟨rfl, rfl⟩, rfl, rfl⟩
theorem witness_TransactionsFollowTheTable :
    (low.plain ∧ ∃ t, exec .callAddr low = .next t) ∧ top.plain ∧ ∃ t, exec (.loadAddr 3) top = .next t :=
  ⟨⟨⟨rfl, rfl⟩, _, rfl⟩, ⟨rfl, rfl⟩, _, rfl⟩
theorem witness_JmpIsTakenExactlyOnZero :
    low.cr = 0 ∧ (start [(2, 1)] []).cr ≠ 0 ∧ (start [(2, 0xFFFF)] []).cr ≠ 0 := by decide
theorem witness_DivisionAndRemainder : low.reg 5 = 0 ∧ low.reg 4 ≠ 0 ∧ low.reg 13 ≠ 0 := by decide
theorem witness_QuotientAndRemainderRecompose : low.reg 4 ≠ 0 := by decide
theorem witness_GetMemoryReadsThroughTheIndex :
    (∃ v s1, busRead top.ix top = .ok v s1) ∧ ∃ f, busRead second.ix second = .stop f :=
  ⟨⟨_, _, rfl⟩, _, rfl⟩
theorem witness_SetMemoryWritesTheLowByte :
    (top.reg 3 = 0x12#8 ++ 0xAB#8 ∧ ∃ s1, busWrite top.ix 0xAB top = .ok () s1) ∧
    second.reg 3 = 0x12#8 ++ 0xAB#8 ∧ ∃ f, busWrite second.ix 0xAB second = .stop f :=
  ⟨⟨by decide, _, rfl⟩, by decide, _, rfl⟩

/-- The operand at pc is read, or either of its reads stops. -/
theorem witness_operand :
    (∃ s2, readsPair top.pc top 0x34 0x12 s2) ∧ (∃ f, readsPairStops first.pc first f) ∧
    ∃ f, readsPairStops second.pc second f :=
  ⟨⟨_, _, rfl, rfl⟩, ⟨_, .inl rfl⟩, _, .inr ⟨_, _, rfl, rfl⟩⟩
theorem witness_LoadImmediateTakesTheInlineOperand :
    (∃ s2, readsPair top.pc top 0x34 0x12 s2) ∧ ∃ f, readsPairStops second.pc second f :=
  ⟨witness_operand.1, witness_operand.2.2⟩
theorem witness_JumpsToTheInlineAddress :
    (∃ s2, readsPair top.pc top 0x34 0x12 s2) ∧ ∃ f, readsPairStops first.pc first f :=
  ⟨witness_operand.1, witness_operand.2.1⟩
theorem witness_PushImmediatePushesTheOperand :
    (∃ s2 s4, readsPair top.pc top 0x34 0x12 s2 ∧ writesPair top.sp 0x34 0x12 s2 s4) ∧
    (∃ f, readsPairStops operand.pc operand f) ∧
    ∃ s2 f, readsPair later.pc later 0x00 0x50 s2 ∧ writesPairStops later.sp 0x00 0x50 s2 f :=
  ⟨⟨_, _, ⟨_, rfl, rfl⟩, _, rfl, rfl⟩, ⟨_, .inr ⟨_, _, rfl, rfl⟩⟩, _, _, ⟨_, rfl, rfl⟩, .inr ⟨_, rfl, rfl⟩⟩
theorem witness_PushRegisterPushesTheValue :
    (top.reg 3 = 0x12#8 ++ 0xAB#8 ∧ ∃ s2, writesPair top.sp 0xAB 0x12 top s2) ∧
    first.reg 3 = 0x12#8 ++ 0xAB#8 ∧ ∃ f, writesPairStops first.sp 0xAB 0x12 first f :=
  ⟨⟨by decide, _, _, rfl, rfl⟩, by decide, _, .inl rfl⟩
theorem witness_PopRegisterPopsTheValue :
    (∃ lo hi s2, readsPair ((start [(13, 0x0001)] []).sp - 2) (start [(13, 0x0001)] []) lo hi s2) ∧
    ∃ f, readsPairStops (second.sp - 2) second f :=
  ⟨⟨_, _, _, _, rfl, rfl⟩, _, .inr ⟨_, _, rfl, rfl⟩⟩
theorem witness_CallAddressPushesThenReadsTheTarget :
    (top.pc + 2 = 0x00#8 ++ 0x01#8 ∧
      ∃ lo hi s2 s4, writesPair top.sp 0x01 0x00 top s2 ∧ readsPair top.pc s2 lo hi s4) ∧
    (later.pc + 2 = 0x01#8 ++ 0x02#8 ∧ ∃ f, writesPairStops later.sp 0x02 0x01 later f) ∧
    operand.pc + 2 = 0x01#8 ++ 0x02#8 ∧
    ∃ s2 f, writesPair operand.sp 0x02 0x01 operand s2 ∧ readsPairStops operand.pc s2 f :=
  ⟨⟨by decide, _, _, _, _, ⟨_, rfl, rfl⟩, _, rfl, rfl⟩, ⟨by decide, _, .inr ⟨_, rfl, rfl⟩⟩, by decide, _, _,
    ⟨_, rfl, rfl⟩, .inr ⟨_, _, rfl, rfl⟩⟩
theorem witness_CallRegisterPushesTheNextAddress :
    (top.pc = 0xFF#8 ++ 0xFF#8 ∧ ∃ s2, writesPair top.sp 0xFF 0xFF top s2) ∧
    later.pc = 0x01#8 ++ 0x00#8 ∧ ∃ f, writesPairStops later.sp 0x00 0x01 later f :=
  ⟨⟨by decide, _, _, rfl, rfl⟩, by decide, _, .inr ⟨_, rfl, rfl⟩⟩
theorem witness_ReturnPopsTheProgramCounter :
    (∃ lo hi s2, readsPair (top.sp - 2) top lo hi s2) ∧ ∃ f, readsPairStops (first.sp - 2) first f :=
  ⟨⟨_, _, _, _, rfl, rfl⟩, _, .inl rfl⟩
theorem witness_StoreWritesTheRegisterAtTheOperand :
    (top.reg 3 = 0x12#8 ++ 0xAB#8 ∧
      ∃ s2 s4, readsPair top.pc top 0x34 0x12 s2 ∧ writesPair (0x12#8 ++ 0x34#8) 0xAB 0x12 s2 s4) ∧
    (operand.reg 3 = 0x12#8 ++ 0xAB#8 ∧ ∃ f, readsPairStops operand.pc operand f) ∧
    later.reg 3 = 0x12#8 ++ 0xAB#8 ∧
    ∃ s2 f, readsPair later.pc later 0x00 0x50 s2 ∧ writesPairStops (0x50#8 ++ 0x00#8) 0xAB 0x12 s2 f :=
  ⟨⟨by decide, _, _, ⟨_, rfl, rfl⟩, _, rfl, rfl⟩, ⟨by decide, _, .inr ⟨_, _, rfl, rfl⟩⟩, by decide, _, _,
    ⟨_, rfl, rfl⟩, .inr ⟨_, rfl, rfl⟩⟩
theorem witness_LoadReadsTheWordAtTheOperand :
    (∃ s2 vlo vhi s4, readsPair top.pc top 0x34 0x12 s2 ∧ readsPair (0x12#8 ++ 0x34#8) s2 vlo vhi s4) ∧
    (∃ f, readsPairStops operand.pc operand f) ∧
    ∃ s2 f, readsPair later.pc later 0x00 0x50 s2 ∧ readsPairStops (0x50#8 ++ 0x00#8) s2 f :=
  ⟨⟨_, _, _, _, ⟨_, rfl, rfl⟩, _, rfl, rfl⟩, ⟨_, .inr ⟨_, _, rfl, rfl⟩⟩, _, _, ⟨_, rfl, rfl⟩,
    .inr ⟨_, _, rfl, rfl⟩⟩

/-- Every address of a bus without map and dictated answers is plain memory. -/
theorem plainAt_of_plain {s : State} (h : s.plain) (a : Word) : s.plainAt a := ⟨h.1, by rw [h.2]; rfl⟩
theorem top_plainAt (a : Word) : top.plainAt a := plainAt_of_plain ⟨rfl, rfl⟩ a
theorem low_plainAt (a : Word) : low.plainAt a := plainAt_of_plain ⟨rfl, rfl⟩ a
theorem top_wf : Memory.wf top.bus.cells = true := by decide
theorem low_wf : Memory.wf low.bus.cells = true := by decide

theorem witness_IndexedBytesOnPlainMemory : top.plainAt top.ix ∧ Memory.wf top.bus.cells = true :=
  ⟨top_plainAt _, top_wf⟩
theorem witness_InlineOperandsOnPlainMemory : top.plainAt top.pc ∧ top.plainAt (top.pc + 1) :=
  ⟨top_plainAt _, top_plainAt _⟩
theorem witness_PushesOnPlainMemory :
    Memory.wf top.bus.cells = true ∧ top.plainAt top.sp ∧ top.plainAt (top.sp + 1) ∧ top.plainAt top.pc ∧
    top.plainAt (top.pc + 1) := ⟨top_wf, top_plainAt _, top_plainAt _, top_plainAt _, top_plainAt _⟩
theorem witness_PopsOnPlainMemory : top.plainAt (top.sp - 2) ∧ top.plainAt (top.sp - 1) :=
  ⟨top_plainAt _, top_plainAt _⟩
theorem witness_CallsOnPlainMemory :
    Memory.wf low.bus.cells = true ∧ low.plainAt low.sp ∧ low.plainAt (low.sp + 1) ∧ low.plainAt low.pc ∧
    low.plainAt (low.pc + 1) := ⟨low_wf, low_plainAt _, low_plainAt _, low_plainAt _, low_plainAt _⟩
theorem witness_StoreAndLoadOnPlainMemory :
    low.plainAt low.pc ∧ low.plainAt (low.pc + 1) ∧ low.plainAt (low.wordAt low.pc) ∧
    low.plainAt (low.wordAt low.pc + 1) ∧ Memory.wf low.bus.cells = true :=
  ⟨low_plainAt _, low_plainAt _, low_plainAt _, low_plainAt _, low_wf⟩
theorem witness_PlainReadGivesTheLatestWrite :
    Memory.wf low.bus.cells = true ∧ low.plainAt 0xFFFF ∧ low.plainAt 0x0000 :=
  ⟨low_wf, low_plainAt _, low_plainAt _⟩

/-- The plain state `low` with answers dictated to its coming transactions. -/
def dictated (ds : List Directive) : State := { low with bus := { low.bus with answers := ds } }

theorem witness_TwoByteAccessIsNotAtomic :
    (Memory.wf (dictated [.served, .reject .unknownError]).bus.cells = true ∧
      (dictated [.served, .reject .unknownError]).served ∧
      portAt (dictated [.served, .reject .unknownError]).bus.map (0xFFFF : Word).toNat = none ∧
      (dictated [.served, .reject .unknownError]).bus.answers = .served :: .reject .unknownError :: []) ∧
    (Memory.wf second.bus.cells = true ∧ second.served ∧ portAt second.bus.map (0x8002 : Word).toNat = none ∧
      second.bus.answers = [] ∧
      portAt second.bus.map (0x8002 + 1 : Word).toNat = some (.rejects .addressInvalid)) ∧
    (∃ s1 f, busWrite 0x8002 0xEF second = .ok () s1 ∧ busWrite (0x8002 + 1) 0xBE s1 = .stop f) ∧
    ∃ s1 f, busRead 0x8002 second = .ok (second.byteAt 0x8002) s1 ∧ busRead (0x8002 + 1) s1 = .stop f :=
  ⟨⟨low_wf, .inr ⟨_, rfl⟩, rfl, rfl⟩, ⟨by decide, .inl rfl, by decide, rfl, by decide⟩, ⟨_, _, rfl, rfl⟩, _, _, rfl, rfl⟩

/-- The first part: a handler's second write and the second fetch read rejected by the map, a zero divisor, the sentinel. -/
theorem witness_BusAnswersPassVerbatim_any :
    (stepCall (start [(13, 0x7FFF)] [0x09, 0x00, 0xEF, 0xBE] [] [0x8000])).1 = .err .addressInvalid ∧
    ((stepCall (start [(13, 0x7FFF)] [0x09, 0x00, 0xEF, 0xBE] [] [0x8000])).2.log.map Transaction.result) =
      [.ok, .ok, .ok, .ok, .ok, .err .addressInvalid] ∧
    (stepCall second).1 = .err .addressInvalid ∧ (stepCall (start [] [0xE3, 0x40])).1 = .err .arithmeticFault ∧
    (stepCall top).1 = .err .instructionInvalid := by decide
theorem witness_BusAnswersPassVerbatim :
    low.pc ≠ 0xFFFF ∧ (dictated [.reject .arithmeticFault]).bus.answers = .reject .arithmeticFault :: [] ∧
    (dictated [.silent]).bus.answers = .silent :: [] := ⟨by decide, rfl, rfl⟩
theorem witness_TheBusIsTheOnlyInput :
    let ds := [.reply 0x09, .reply 0x30, .reply 0, .reply 0, .reply 0, .reject .unknownError]
    let s := dictated ds
    let t := { s with bus := { s.bus with cells := [], map := harnessMap 1 false } }
    s.regs = t.regs ∧ s.ctx = t.ctx ∧ s.bus.answers = t.bus.answers ∧ 6 ≤ s.bus.answers.length ∧
    Directive.served ∉ s.bus.answers ∧ s.bus ≠ t.bus := by decide
theorem witness_HarnessDevicesAnswer :
    (onHarness [] [0x30, 0x00] [0x41]).bus.answers = [] ∧
    (onHarness [] [0x30, 0x00] [0x41]).bus.map = harnessMap 2 false ∧
    (onHarness [] [0x30, 0x00] [0x41]).bus.input = 0x41 :: [] ∧
    ((onHarness [] [0x30, 0x00] []).bus.input = [] ∧ (onHarness [] [0x30, 0x00] []).bus.eof = none) ∧
    (onHarness [] [0x30, 0x00] [] (some 0x04)).bus.map = harnessMap 2 false ∧
    (onHarness [] [0x30, 0x00] [] (some 0x04)).bus.input = [] ∧
    (onHarness [] [0x30, 0x00] [] (some 0x04)).bus.eof = some 0x04 := by decide
theorem witness_HarnessLoadsTheRomAtThree :
    Memory.wf [(0, 7), (0xFFFF, 1)] = true ∧ (List.replicate 65533 (1 : Byte)).length ≤ 65533 ∧
    65533 < (List.replicate 65534 (1 : Byte)).length :=
  ⟨by decide, by rw [List.length_replicate], by rw [List.length_replicate]; decide⟩
theorem witness_ConstructionInstallsTheHostsRegisters :
    (State.construct (Vector.replicate 16 0xFFFF) Bus.plain 0).halted = true ∧ State.reset.halted = false := by decide
theorem witness_InvariantHoldsAtReset : Memory.wf low.bus.cells = true := low_wf
theorem witness_EveryStepKeepsTheInvariant :
    (State.reset.Inv ∧ ∃ t, step State.reset = .next t) ∧ first.Inv ∧ ∃ f, step first = .fault f :=
  ⟨⟨⟨by decide, fun x hx => absurd hx (List.not_mem_nil)⟩, _, rfl⟩,
    ⟨by decide, fun x hx => absurd hx (List.not_mem_nil)⟩, _, rfl⟩
theorem witness_PlacedInstructionIsRunNext :
    (Memory.wf State.reset.bus.cells = true ∧ State.reset.pc ≠ 0xFFFF ∧
      decodeTableWord 32 0x12340430 = some (.loadImm 3)) ∧
    (Memory.wf (start [(15, 0xFFFE)] []).bus.cells = true ∧ (start [(15, 0xFFFE)] []).pc ≠ 0xFFFF ∧
      decodeTableWord 16 0xB340 = some (.add 3 4)) ∧
    ((4 : Word) ≠ 0xFFFE ∧ (4 : Word) ≠ 0xFFFE + 1 ∧ (4 : Word) ≠ 0xFFFE + 2 ∧ (4 : Word) ≠ 0xFFFE + 3) := by decide
theorem witness_PushThenPopRestoresTheRegister :
    Memory.wf top.bus.cells = true ∧ top.plainAt top.sp ∧ top.plainAt (top.sp + 1) :=
  ⟨top_wf, top_plainAt _, top_plainAt _⟩
theorem witness_CallThenReturnComesBack :
    (Memory.wf low.bus.cells = true ∧ low.plainAt low.sp ∧ low.plainAt (low.sp + 1) ∧ low.plainAt low.pc ∧
      low.plainAt (low.pc + 1)) ∧
    ∃ t, exec .callAddr low = .next t ∧ ∃ callee : State, callee.sp = t.sp ∧ callee.plainAt low.sp ∧
      callee.plainAt (low.sp + 1) ∧ callee.byteAt low.sp = t.byteAt low.sp ∧
      callee.byteAt (low.sp + 1) = t.byteAt (low.sp + 1) :=
  ⟨witness_CallsOnPlainMemory, _, rfl, _, rfl, ⟨rfl, rfl⟩, ⟨rfl, rfl⟩, rfl, rfl⟩
theorem witness_MapRegionsAnswer :
    (second.served ∧ portAt second.bus.map (0x8003 : Word).toNat = some (.rejects .addressInvalid)) ∧
    ((onHarness [] [0x30, 0x00] []).served ∧
      portAt (onHarness [] [0x30, 0x00] []).bus.map (0x0004 : Word).toNat = some .readOnly) ∧
    (second.bus.map = [] ++ { first := 0x0101, last := 0x0101, port := .rejects .addressInvalid } ::
        second.bus.map.tail ∧
      ({ first := 0x0101, last := 0x0101, port := .rejects .addressInvalid } : Region).holds (0x0101 : Word).toNat =
        true) ∧
    ∀ q ∈ second.bus.map, q.holds (0x0100 : Word).toNat = false :=
  ⟨⟨.inl rfl, by decide⟩, ⟨.inl rfl, by decide⟩, ⟨rfl, by decide⟩, by decide⟩
theorem witness_HarnessMapPlacesTheRom :
    portAt (harnessMap 2 false) 3 = some .readOnly ∧ portAt (harnessMap 2 false) 4 = some .readOnly ∧
    portAt (harnessMap 2 false) 5 = none ∧ portAt (harnessMap 2 true) 3 = none ∧
    portAt (harnessMap 0 false) 3 = none := by decide
theorem witness_LimitOnlyCutsARunShort : runEndsWith none top (.err .instructionInvalid, top) :=
  ⟨by decide, 1, rfl⟩

end Sys2Proof.Tests
end

/-! The opcode map of 30_encoding.md R68 to R70: a word written as four nibbles goes to the arm of each map that
its selector nibbles name, whatever the other nibbles are. -/
namespace Sys2Proof

/-- The fields of the word of four nibbles. -/
def nibbleFields (op a b c : Nibble) : Fields where
  opcode := op
  regA := a
  regB := b
  rrB := c
  imm12 := a ++ b ++ c
  raw2 := b ++ c

/-- OR's immediate is the low two nibbles of the word (R64). -/
theorem imm8Of_nibbleFields (op a b c : Nibble) : imm8Of (nibbleFields op a b c) = b ++ c := by
  have hb := b.isLt; have hc := c.isLt
  apply BitVec.eq_of_toNat_eq
  simp only [imm8Of, nibbleFields, BitVec.extractLsb'_toNat, Nat.shiftRight_zero, toNat_append_nibble]
  omega

/-- A word of four nibbles goes to the primary map with those nibbles as its fields (R68). -/
theorem decodeWord_nibbles (op a b c : Nibble) :
    decodeWord (op ++ a ++ b ++ c) = primaryDispatch (nibbleFields op a b c) :=
  congrArg primaryDispatch (fieldsOf_wordOfNibbles op a b c)

/-- Opcode 0x4 is OR with the low byte of the word (R64, R68). -/
theorem decodeWord_orImm (a b c : Nibble) : decodeWord (0x4#4 ++ a ++ b ++ c) = .orImm (regOf a) (b ++ c) :=
  (decodeWord_nibbles 0x4 a b c).trans (congrArg (Instr.orImm (regOf a)) (imm8Of_nibbleFields 0x4 a b c))

/-- Opcode 0x0 goes to the extended map (R68, R69). -/
theorem decodeWord_extended (a b c : Nibble) :
    decodeWord (0x0#4 ++ a ++ b ++ c) = extendedDispatch (nibbleFields 0x0 a b c) :=
  decodeWord_nibbles 0x0 a b c

/-- Extended sub-opcode 0x9 goes to the stack map (R69, R70). -/
theorem decodeWord_stack (b c : Nibble) :
    decodeWord (0x0#4 ++ 0x9#4 ++ b ++ c) = stackDispatch (nibbleFields 0x0 0x9 b c) :=
  decodeWord_extended 0x9 b c

/-- Extended sub-opcodes 0xA and 0xB are reserved (R69). -/
theorem decodeWord_reservedExtAB {a : Nibble} (b c : Nibble) (ha : a = 0xA ∨ a = 0xB) :
    decodeWord (0x0#4 ++ a ++ b ++ c) = .reservedExtAB a := by
  rcases ha with rfl | rfl <;> exact decodeWord_extended _ b c

/-- Extended sub-opcodes 0xC to 0xF are reserved (R69). -/
theorem decodeWord_reservedExtCF {a : Nibble} (b c : Nibble) (ha : a = 0xC ∨ a = 0xD ∨ a = 0xE ∨ a = 0xF) :
    decodeWord (0x0#4 ++ a ++ b ++ c) = .reservedExtCF a := by
  rcases ha with rfl | rfl | rfl | rfl <;> exact decodeWord_extended _ b c

/-- The nibbles from 0x8 on. -/
theorem nibble_ge_eight : ∀ {b : Nibble}, 0x8#4 ≤ b →
    b = 0x8 ∨ b = 0x9 ∨ b = 0xA ∨ b = 0xB ∨ b = 0xC ∨ b = 0xD ∨ b = 0xE ∨ b = 0xF := by
  decide

/-- Stack sub-opcodes 0x8 to 0xF are reserved (R70). -/
theorem decodeWord_reservedStack8F {b : Nibble} (c : Nibble) (hb : 0x8#4 ≤ b) :
    decodeWord (0x0#4 ++ 0x9#4 ++ b ++ c) = .reservedStack8F b := by
  rcases nibble_ge_eight hb with rfl | rfl | rfl | rfl | rfl | rfl | rfl | rfl <;> exact decodeWord_stack _ c

namespace Machine

/-- The handler of the reserved extended words 0xA and 0xB has no effect (R161). -/
@[simp] theorem exec_reservedExtAB (n : Nibble) (s : State) : exec (.reservedExtAB n) s = .next s := rfl

/-- The handler of the reserved extended words 0xC to 0xF has no effect (R161). -/
@[simp] theorem exec_reservedExtCF (n : Nibble) (s : State) : exec (.reservedExtCF n) s = .next s := rfl

/-- The handler of the reserved stack words has no effect (R189). -/
@[simp] theorem exec_reservedStack8F (n : Nibble) (s : State) : exec (.reservedStack8F n) s = .next s := rfl

end Machine

/-- Settles O3: each row is the arm of one of the three maps at its selector, the reserved ranges by cases. -/
theorem opcodeMapSelectsTheHandler : Obligations.OpcodeMapSelectsTheHandler := by
  intro a b c
  have primary (op : Nibble) := decodeWord_nibbles op a b c
  have extended (sub : Nibble) := decodeWord_extended sub b c
  have stack (sub : Nibble) := decodeWord_stack sub c
  exact ⟨primary 0x1, primary 0x2, primary 0x3, decodeWord_orImm a b c, primary 0x5, primary 0x6, primary 0x7,
    primary 0x8, primary 0x9, primary 0xA, primary 0xB, primary 0xC, primary 0xD, primary 0xE, primary 0xF,
    extended 0x0, extended 0x1, extended 0x2, extended 0x3, extended 0x4, extended 0x5, extended 0x6, extended 0x7,
    extended 0x8, decodeWord_reservedExtAB b c, decodeWord_reservedExtCF b c,
    stack 0x0, stack 0x1, stack 0x2, stack 0x3, stack 0x4, stack 0x5, stack 0x6, stack 0x7,
    decodeWord_reservedStack8F c,
    fun s => ⟨Machine.exec_reservedExtAB a s, Machine.exec_reservedExtCF a s, Machine.exec_reservedStack8F b s⟩⟩

end Sys2Proof


/-! The step driver of 40_step_driver.md: what a step call and a run of step calls return when the step stops. -/
namespace Sys2Proof

namespace Machine

/-- A step call reports a fault's result and the state it leaves (R86). -/
theorem stepCall_of_step_fault {s : State} {f : Fault} (h : step s = .fault f) : stepCall s = (f.result, f.left) := by
  simp [stepCall, h]

/-- A run ends at its first step call that fails, with that call's result and state (D12). -/
theorem runCalls_succ_of_failed {s t : State} {r : StepResult} (n : Nat) (h : stepCall s = (r, t)) (hr : r ≠ .ok) :
    runCalls (n + 1) s = (r, t) := by
  cases r with
  | ok => exact absurd rfl hr
  | err code => simp [runCalls, h]
  | unfinished => simp [runCalls, h]
  | runEnded => simp [runCalls, h]
  | refused => simp [runCalls, h]

/-- At the sentinel the fetch stops before its first read, and the step with it (R81). -/
theorem step_of_sentinel {s : State} (h : s.pc = Config.fetchSentinel) :
    step s = .fault (raise .instructionInvalid s) :=
  step_eq_fault.mpr (.inl (fetchInstr_stop.mpr (.inl ⟨h, rfl⟩)))

end Machine

/-- Settles O8: the sentinel test stops the step in the state it starts in, and a run stops with its first step call. -/
theorem sentinelStepChangesNothing : Obligations.SentinelStepChangesNothing := by
  intro s n hpc
  have hstep : Machine.step s = .fault (.err .instructionInvalid s) := Machine.step_of_sentinel hpc
  have hcall : Machine.stepCall s = (.err .instructionInvalid, s) := Machine.stepCall_of_step_fault hstep
  exact ⟨hstep, hcall, Machine.runCalls_succ_of_failed n hcall (by simp)⟩

end Sys2Proof


/-! The primary control and memory group of 41_primary_control_memory.md: JMP by whether it is taken, and SM by how the bus
answers its one write. -/
namespace Sys2Proof

namespace Machine

/-! ## Frames -/

/-- A handler that changes nothing makes no transaction. -/
@[simp] theorem noTransaction_refl (s : State) : noTransaction s s := ⟨rfl, rfl, rfl, fun _ => rfl⟩

/-- A register write is no transaction. -/
@[simp] theorem noTransaction_setReg (s : State) (r : Reg) (v : Word) : noTransaction s (s.setReg r v) :=
  ⟨setReg_bus s r v, setReg_ctx s r v, setReg_log s r v, setReg_byteAt s r v⟩

/-- A state has its own bus, handle and record. -/
@[simp] theorem sameBus_refl (s : State) : sameBus s s := ⟨rfl, rfl, rfl⟩

/-- A write that stops the step writes no register (R89, R90). -/
theorem busWrite_stop_regs {a : Word} {v : Byte} {s : State} {w : Fault} (h : busWrite a v s = .stop w) :
    w.left.regs = s.regs := by
  obtain ⟨_, _, hafter, _⟩ := busWrite_stop h
  exact hafter.regs

/-! ## JMP -/

/-- JMP sets pc to its register where `cr` is 0 (R101). -/
theorem exec_jmp_taken {s : State} (ra : Reg) (h : s.cr = 0) :
    exec (.jmp ra) s = .next (s.setReg Reg.pc (s.reg ra)) :=
  if_pos ((taken_iff s).mpr h)

/-- JMP has no effect where `cr` is not 0 (R101). -/
theorem exec_jmp_not_taken {s : State} (ra : Reg) (h : s.cr ≠ 0) : exec (.jmp ra) s = .next s :=
  if_neg (mt (taken_iff s).mp h)

/-! ## SM -/

/-- SM is the write of the low byte of its register at `ix` (R106). -/
theorem exec_sm {ra : Reg} {hi lo : Byte} {s : State} (h : s.reg ra = hi ++ lo) :
    exec (.sm ra) s = (busWrite s.ix lo s).finish fun _ s1 => .next s1 := by
  change (busWrite s.ix (lowByte (s.reg ra)) s).finish _ = _
  rw [h, lowByte_append]

/-- SM completes in the state its answered write leaves. -/
theorem exec_sm_of_busWrite_ok {ra : Reg} {hi lo : Byte} {s s1 : State} (h : s.reg ra = hi ++ lo)
    (hw : busWrite s.ix lo s = .ok () s1) : exec (.sm ra) s = .next s1 := by
  rw [exec_sm h, hw, finish_ok]

/-- SM stops where its write stops, with its registers unchanged. -/
theorem handlerStops_sm {ra : Reg} {hi lo : Byte} {s : State} {w : Fault} (h : s.reg ra = hi ++ lo)
    (hw : busWrite s.ix lo s = .stop w) : handlerStops (.sm ra) s w :=
  ⟨by rw [exec_sm h, hw, finish_stop], busWrite_stop_regs hw⟩

end Machine

/-- Settles O27, by how the bus answers the write: the state after an answered write keeps the registers and every other
byte, and a stopped one is the step's fault. -/
theorem setMemoryWritesTheLowByte : Obligations.SetMemoryWritesTheLowByte := by
  refine ⟨decodeWord_nibbles 0x3, fun ra hi lo s => ⟨rfl, fun hval => ⟨fun s1 hok => ?_, fun f hstop => ?_⟩⟩⟩
  · obtain ⟨hafter, hother⟩ := Machine.busWrite_ok hok
    exact ⟨s1, Machine.exec_sm_of_busWrite_ok hval hok, hafter.reg, Machine.sameBus_refl s1, hother⟩
  · exact Machine.handlerStops_sm hval hstop

/-- Settles O15, by whether `cr` is 0: pc is the only register written, and only where the jump is taken. A pc at the
sentinel stops the next step whichever way it came there. -/
theorem jmpIsTakenExactlyOnZero : Obligations.JmpIsTakenExactlyOnZero := by
  refine ⟨decodeWord_nibbles 0x1, fun ra s => ⟨rfl, ?_⟩⟩
  by_cases hcr : s.cr = 0
  · refine ⟨_, Machine.exec_jmp_taken ra hcr, fun r => ?_, Machine.noTransaction_setReg .., Machine.step_of_sentinel⟩
    simp only [Machine.reg_setReg, hcr, and_true]
  · refine ⟨s, Machine.exec_jmp_not_taken ra hcr, fun r => ?_, Machine.noTransaction_refl s, Machine.step_of_sentinel⟩
    simp only [hcr, and_false, if_false]

end Sys2Proof


/-! The ALU group of 42_primary_alu.md: what each operation writes to `rA`, and that it writes nothing else. -/
namespace Sys2Proof

/-! ## The word of OR -/

/-- A byte is its upper nibble over its lower nibble. -/
theorem byte_eq_append_nibbles (v : Byte) : v.extractLsb' 4 4 ++ v.extractLsb' 0 4 = v := by
  have hv := v.isLt
  apply BitVec.eq_of_toNat_eq
  rw [toNat_append_nibble, BitVec.extractLsb'_toNat, BitVec.extractLsb'_toNat]
  omega

/-- Opcode 0x4 is OR with the second byte of the word as its immediate (R64, R120). -/
theorem decodeWord_orImm_byte (a : Nibble) (v : Byte) : decodeWord (0x4#4 ++ a ++ v) = .orImm (regOf a) v := by
  have assoc (b c : Nibble) : (0x4#4 ++ a ++ (b ++ c) : Word) = 0x4#4 ++ a ++ b ++ c := BitVec.append_assoc.symm
  rw [← byte_eq_append_nibbles v, ← decodeWord_orImm]
  exact congrArg decodeWord (assoc _ _)

namespace Machine

/-! ## What each operation writes -/

/-- OR ors its zero-extended immediate into its register (R120). -/
theorem exec_orImm (ra : Reg) (v : Byte) (s : State) :
    exec (.orImm ra v) s = .next (s.setReg ra (s.reg ra ||| (0#8 ++ v))) := by
  rw [← zext16_eq_append]
  rfl

/-- ORR (R121). -/
theorem exec_orr (ra rb : Reg) (s : State) : exec (.orr ra rb) s = .next (s.setReg ra (s.reg ra ||| s.reg rb)) := rfl

/-- AND (R122). -/
theorem exec_and (ra rb : Reg) (s : State) : exec (.and ra rb) s = .next (s.setReg ra (s.reg ra &&& s.reg rb)) := rfl

/-- XOR (R123). -/
theorem exec_xor (ra rb : Reg) (s : State) : exec (.xor ra rb) s = .next (s.setReg ra (s.reg ra ^^^ s.reg rb)) := rfl

/-- NOT (R124). -/
theorem exec_not (ra : Reg) (s : State) : exec (.not ra) s = .next (s.setReg ra (~~~ s.reg ra)) := rfl

/-- ADD (R127). -/
theorem exec_add (ra rb : Reg) (s : State) : exec (.add ra rb) s = .next (s.setReg ra (s.reg ra + s.reg rb)) := rfl

/-- SUB (R128). -/
theorem exec_sub (ra rb : Reg) (s : State) : exec (.sub ra rb) s = .next (s.setReg ra (s.reg ra - s.reg rb)) := rfl

/-- MUL (R129). -/
theorem exec_mul (ra rb : Reg) (s : State) : exec (.mul ra rb) s = .next (s.setReg ra (s.reg ra * s.reg rb)) := rfl

/-! ## The frame of one register write -/

/-- An outcome that is one register write completes, changes that register alone and makes no transaction. -/
theorem frame_of_eq_setReg {o : Host.Outcome State Fault Refusal} {s : State} {ra : Reg} {v : Word}
    (h : o = .next (s.setReg ra v)) :
    ∃ t, o = .next t ∧ (∀ r, t.reg r = if r = ra then v else s.reg r) ∧ noTransaction s t :=
  ⟨_, h, fun r => reg_setReg s ra r v, noTransaction_setReg s ra v⟩

/-- The same with the value written as a number. -/
theorem frame_toNat_of_eq_setReg {o : Host.Outcome State Fault Refusal} {s : State} {ra : Reg} {v : Word} {n : Nat}
    (h : o = .next (s.setReg ra v)) (hv : v.toNat = n) :
    ∃ t, o = .next t ∧ noTransaction s t ∧ (t.reg ra).toNat = n ∧ ∀ r, r ≠ ra → t.reg r = s.reg r := by
  obtain ⟨t, hnext, hreg, hframe⟩ := frame_of_eq_setReg h
  refine ⟨t, hnext, hframe, ?_, fun r hr => ?_⟩
  · rw [hreg, if_pos rfl, hv]
  · rw [hreg, if_neg hr]

end Machine

/-- Settles O16: the second byte of the word is the immediate, and its zero extension is or-ed into the one register
written. -/
theorem orImmediateSetsLowBits : Obligations.OrImmediateSetsLowBits :=
  ⟨decodeWord_orImm_byte, fun ra v s => ⟨rfl, Machine.frame_of_eq_setReg (Machine.exec_orImm ra v s)⟩⟩

/-- Settles O17: each operation is one register write, of its value on the operands before. -/
theorem logicOperations : Obligations.LogicOperations := by
  refine ⟨fun a b c => ?words, fun ra rb s => ⟨⟨rfl, rfl, rfl, rfl⟩, ?orr, ?and, ?xor, ?not⟩⟩
  case words =>
    have primary (op : Nibble) := decodeWord_nibbles op a b c
    exact ⟨primary 0x5, primary 0x6, primary 0x7, primary 0x8⟩
  case orr => exact Machine.frame_of_eq_setReg (Machine.exec_orr ra rb s)
  case and => exact Machine.frame_of_eq_setReg (Machine.exec_and ra rb s)
  case xor => exact Machine.frame_of_eq_setReg (Machine.exec_xor ra rb s)
  case not => exact Machine.frame_of_eq_setReg (Machine.exec_not ra s)

/-- Settles O19: each operation is one register write, whose number is the operation's on the numbers before, modulo
65536. -/
theorem arithmeticWraps : Obligations.ArithmeticWraps := by
  refine ⟨fun a b c => ?words, fun ra rb s => ⟨⟨rfl, rfl, rfl⟩, ?add, ?sub, ?mul⟩⟩
  case words =>
    have primary (op : Nibble) := decodeWord_nibbles op a b c
    exact ⟨primary 0xB, primary 0xC, primary 0xD⟩
  case add => exact Machine.frame_toNat_of_eq_setReg (Machine.exec_add ra rb s) (BitVec.toNat_add _ _)
  case sub =>
    exact Machine.frame_toNat_of_eq_setReg (Machine.exec_sub ra rb s)
      ((BitVec.toNat_sub _ _).trans (by rw [Nat.add_comm]))
  case mul => exact Machine.frame_toNat_of_eq_setReg (Machine.exec_mul ra rb s) (BitVec.toNat_mul _ _)

end Sys2Proof


/-! The extended group of 43_extended.md: the words and handlers without effect, the comparisons that write `cr`, and the
register moves. -/
namespace Sys2Proof

/-! ## The reserved words as a range -/

/-- The nibbles from 0xC on. -/
theorem nibble_ge_twelve : ∀ {a : Nibble}, 0xC#4 ≤ a → a = 0xC ∨ a = 0xD ∨ a = 0xE ∨ a = 0xF := by
  decide

namespace Machine

/-! ## What each instruction writes -/

/-- NOP has no effect (R151). -/
@[simp] theorem exec_nop (s : State) : exec .nop s = .next s := rfl

/-- The outcome of a comparison in `cr` is 0 where it holds and 1 where it does not (R23). -/
theorem setCondition_decide (s : State) (p : Prop) [Decidable p] :
    s.setCondition (decide p) = s.setReg Reg.cr (if p then 0 else 1) := by
  by_cases hp : p
  · rw [decide_eq_true hp, if_pos hp]
    rfl
  · rw [decide_eq_false hp, if_neg hp]
    rfl

/-- CMP_EQ (R152): the model compares numbers, which are equal exactly where the words are. -/
theorem exec_cmpEq (rb rc : Reg) (s : State) :
    exec (.cmpEq rb rc) s = .next (s.setReg Reg.cr (if s.reg rb = s.reg rc then 0 else 1)) := by
  have hrun : exec (.cmpEq rb rc) s = .next (s.setCondition (decide ((s.reg rb).toNat = (s.reg rc).toNat))) := rfl
  rw [hrun, setCondition_decide]
  simp only [BitVec.toNat_inj]

/-- CMP_LT, unsigned (R154). -/
theorem exec_cmpLt (rb rc : Reg) (s : State) :
    exec (.cmpLt rb rc) s = .next (s.setReg Reg.cr (if (s.reg rb).toNat < (s.reg rc).toNat then 0 else 1)) :=
  congrArg Host.Outcome.next (setCondition_decide s ((s.reg rb).toNat < (s.reg rc).toNat))

/-- COPY (R157). -/
theorem exec_copy (rb rc : Reg) (s : State) : exec (.copy rb rc) s = .next (s.setReg rb (s.reg rc)) := rfl

/-- SWAP writes both values before, `rB` first (R158). -/
theorem exec_swap (rb rc : Reg) (s : State) :
    exec (.swap rb rc) s = .next ((s.setReg rb (s.reg rc)).setReg rc (s.reg rb)) := rfl

/-! ## The frame of two register writes -/

/-- No transaction in a first part nor in a second is none in both. -/
theorem noTransaction_trans {s t u : State} (hst : noTransaction s t) (htu : noTransaction t u) : noTransaction s u := by
  obtain ⟨hbus, hctx, hlog, hbyte⟩ := hst
  obtain ⟨hbus', hctx', hlog', hbyte'⟩ := htu
  exact ⟨hbus'.trans hbus, hctx'.trans hctx, hlog'.trans hlog, fun a => (hbyte' a).trans (hbyte a)⟩

/-- An outcome that is two register writes completes, the later write deciding where both are to one register, changes
those two alone and makes no transaction. -/
theorem frame_of_eq_setReg_setReg {o : Host.Outcome State Fault Refusal} {s : State} {ra rb : Reg} {v w : Word}
    (h : o = .next ((s.setReg ra v).setReg rb w)) :
    ∃ t, o = .next t ∧ (∀ r, t.reg r = if r = rb then w else if r = ra then v else s.reg r) ∧ noTransaction s t := by
  refine ⟨_, h, fun r => ?_, noTransaction_trans (noTransaction_setReg s ra v) (noTransaction_setReg _ rb w)⟩
  rw [reg_setReg, reg_setReg]

end Machine

/-- Settles O22: the words are those of the opcode map, the range from 0xC by its four nibbles, and each handler answers
its own state. -/
theorem nopAndReservedWordsChangeNothing : Obligations.NopAndReservedWordsChangeNothing := by
  refine ⟨decodeWord_extended 0x0, fun a b c => ⟨?extAB, ?extCF⟩, fun _ c => decodeWord_reservedStack8F c,
    fun n s => ⟨⟨rfl, rfl, rfl, rfl⟩, ?handlers⟩⟩
  case extAB => exact decodeWord_reservedExtAB b c
  case extCF => exact fun ha => decodeWord_reservedExtCF b c (nibble_ge_twelve ha)
  case handlers =>
    exact ⟨Machine.exec_nop s, Machine.exec_reservedExtAB n s, Machine.exec_reservedExtCF n s,
      Machine.exec_reservedStack8F n s⟩

/-- Settles O23: each comparison is one write of `cr`, of 0 or 1 by the operands before. -/
theorem compareEqualAndLess : Obligations.CompareEqualAndLess := by
  refine ⟨fun b c => ⟨decodeWord_extended 0x1 b c, decodeWord_extended 0x3 b c⟩,
    fun rb rc s => ⟨⟨rfl, rfl⟩, ?cmpEq, ?cmpLt⟩⟩
  case cmpEq => exact Machine.frame_of_eq_setReg (Machine.exec_cmpEq rb rc s)
  case cmpLt => exact Machine.frame_of_eq_setReg (Machine.exec_cmpLt rb rc s)

/-- Settles O25: COPY is one register write and SWAP two, all of values before. -/
theorem copyAndSwap : Obligations.CopyAndSwap := by
  refine ⟨fun b c => ⟨decodeWord_extended 0x6 b c, decodeWord_extended 0x7 b c⟩,
    fun rb rc s => ⟨⟨rfl, rfl⟩, ?copy, ?swap⟩⟩
  case copy => exact Machine.frame_of_eq_setReg (Machine.exec_copy rb rc s)
  case swap => exact Machine.frame_of_eq_setReg_setReg (Machine.exec_swap rb rc s)

end Sys2Proof


/-! The encoder and the decoder as inverses (30_encoding.md R63, R65 to R71): decoding the word of an instruction, the
word of a decoded instruction, and the rows and lengths of all words. -/
namespace Sys2Proof

/-! ## The word of an instruction decodes to it -/

/-- The nibbles of OR's immediate give the immediate back (R64). -/
theorem decodeWord_encode_orImm (ra : Reg) (v : Byte) : decodeWord (encode (.orImm ra v)) = .orImm ra v :=
  (decodeWord_orImm (nibbleOf ra) (v.extractLsb' 4 4) (v.extractLsb' 0 4)).trans
    (congrArg (Instr.orImm ra) (byte_eq_append_nibbles v))

theorem reservedExtAB_wellFormed {n : Nibble} : (Instr.reservedExtAB n).wellFormed = true ↔ n = 0xA ∨ n = 0xB := by
  simp [Instr.wellFormed]

theorem reservedExtCF_wellFormed {n : Nibble} :
    (Instr.reservedExtCF n).wellFormed = true ↔ n = 0xC ∨ n = 0xD ∨ n = 0xE ∨ n = 0xF := by
  simp [Instr.wellFormed, or_assoc]

theorem reservedStack8F_wellFormed {n : Nibble} : (Instr.reservedStack8F n).wellFormed = true ↔ 0x8#4 ≤ n := by
  revert n
  decide

/-- Settles O1, by the rows: each word goes to the arm of the map at its selectors, which reads its operands back. -/
theorem decodeOfEncodeIsTheInstruction : Obligations.DecodeOfEncodeIsTheInstruction := by
  intro i hwf
  cases i with
  | jmp ra => exact decodeWord_nibbles 0x1 (nibbleOf ra) 0 0
  | gm ra => exact decodeWord_nibbles 0x2 (nibbleOf ra) 0 0
  | sm ra => exact decodeWord_nibbles 0x3 (nibbleOf ra) 0 0
  | orImm ra v => exact decodeWord_encode_orImm ra v
  | orr ra rb => exact decodeWord_nibbles 0x5 (nibbleOf ra) (nibbleOf rb) 0
  | and ra rb => exact decodeWord_nibbles 0x6 (nibbleOf ra) (nibbleOf rb) 0
  | xor ra rb => exact decodeWord_nibbles 0x7 (nibbleOf ra) (nibbleOf rb) 0
  | not ra => exact decodeWord_nibbles 0x8 (nibbleOf ra) 0 0
  | shl ra rb => exact decodeWord_nibbles 0x9 (nibbleOf ra) (nibbleOf rb) 0
  | shr ra rb => exact decodeWord_nibbles 0xA (nibbleOf ra) (nibbleOf rb) 0
  | add ra rb => exact decodeWord_nibbles 0xB (nibbleOf ra) (nibbleOf rb) 0
  | sub ra rb => exact decodeWord_nibbles 0xC (nibbleOf ra) (nibbleOf rb) 0
  | mul ra rb => exact decodeWord_nibbles 0xD (nibbleOf ra) (nibbleOf rb) 0
  | div ra rb => exact decodeWord_nibbles 0xE (nibbleOf ra) (nibbleOf rb) 0
  | mod ra rb => exact decodeWord_nibbles 0xF (nibbleOf ra) (nibbleOf rb) 0
  | nop => exact decodeWord_extended 0x0 0 0
  | cmpEq rb rc => exact decodeWord_extended 0x1 (nibbleOf rb) (nibbleOf rc)
  | cmpGt rb rc => exact decodeWord_extended 0x2 (nibbleOf rb) (nibbleOf rc)
  | cmpLt rb rc => exact decodeWord_extended 0x3 (nibbleOf rb) (nibbleOf rc)
  | loadImm rb => exact decodeWord_extended 0x4 (nibbleOf rb) 0
  | jmpImm => exact decodeWord_extended 0x5 0 0
  | copy rb rc => exact decodeWord_extended 0x6 (nibbleOf rb) (nibbleOf rc)
  | swap rb rc => exact decodeWord_extended 0x7 (nibbleOf rb) (nibbleOf rc)
  | ujmp => exact decodeWord_extended 0x8 0 0
  | reservedExtAB n => exact decodeWord_reservedExtAB 0 0 (reservedExtAB_wellFormed.mp hwf)
  | reservedExtCF n => exact decodeWord_reservedExtCF 0 0 (reservedExtCF_wellFormed.mp hwf)
  | pushImm => exact decodeWord_stack 0x0 0
  | pushReg rc => exact decodeWord_stack 0x1 (nibbleOf rc)
  | popReg rc => exact decodeWord_stack 0x2 (nibbleOf rc)
  | callAddr => exact decodeWord_stack 0x3 0
  | callReg rc => exact decodeWord_stack 0x4 (nibbleOf rc)
  | ret => exact decodeWord_stack 0x5 0
  | storeAddr rc => exact decodeWord_stack 0x6 (nibbleOf rc)
  | loadAddr rc => exact decodeWord_stack 0x7 (nibbleOf rc)
  | reservedStack8F n => exact decodeWord_reservedStack8F 0 (reservedStack8F_wellFormed.mp hwf)

/-! ## Every word, by the selectors of the three maps -/

/-- What holds at each of the sixteen nibbles holds of every nibble. -/
theorem nibble_cases {P : Nibble → Prop} (h0 : P 0x0) (h1 : P 0x1) (h2 : P 0x2) (h3 : P 0x3) (h4 : P 0x4) (h5 : P 0x5)
    (h6 : P 0x6) (h7 : P 0x7) (h8 : P 0x8) (h9 : P 0x9) (hA : P 0xA) (hB : P 0xB) (hC : P 0xC) (hD : P 0xD) (hE : P 0xE)
    (hF : P 0xF) (n : Nibble) : P n := by
  have hn : n = 0x0 ∨ n = 0x1 ∨ n = 0x2 ∨ n = 0x3 ∨ n = 0x4 ∨ n = 0x5 ∨ n = 0x6 ∨ n = 0x7 ∨ n = 0x8 ∨ n = 0x9 ∨
      n = 0xA ∨ n = 0xB ∨ n = 0xC ∨ n = 0xD ∨ n = 0xE ∨ n = 0xF := by
    revert n
    decide
  rcases hn with rfl | rfl | rfl | rfl | rfl | rfl | rfl | rfl | rfl | rfl | rfl | rfl | rfl | rfl | rfl | rfl <;>
    assumption

/-- What holds of a word of four nibbles together with the instruction the primary map gives for them holds of every
word and the instruction it decodes to. -/
theorem word_cases {P : Word → Instr → Prop}
    (h : ∀ op a b c : Nibble, P (wordOfNibbles op a b c) (primaryDispatch (nibbleFields op a b c))) (w : Word) :
    P w (decodeWord w) := by
  rw [← wordOfNibbles_fields w]
  have hdec := decodeWord_nibbles (fieldsOf w).opcode (fieldsOf w).regA (fieldsOf w).regB (fieldsOf w).rrB
  exact hdec ▸ h _ _ _ _

/-! ## Masks -/

theorem nibble_and_ones (x : Nibble) : x &&& 0xF = x := by
  revert x
  decide

theorem nibble_and_zeros (x : Nibble) : x &&& 0 = 0 := by
  revert x
  decide

/-- The mask of the instructions that read one field after the opcode. -/
theorem wordOfNibbles_and_FF00 (op a b c : Nibble) : wordOfNibbles op a b c &&& 0xFF00 = wordOfNibbles op a 0 0 := by
  rw [show (0xFF00 : Word) = wordOfNibbles 0xF 0xF 0 0 from rfl, wordOfNibbles_and]
  simp only [nibble_and_ones, nibble_and_zeros]

/-- The mask of the instructions that read two fields after the opcode. -/
theorem wordOfNibbles_and_FFF0 (op a b c : Nibble) : wordOfNibbles op a b c &&& 0xFFF0 = wordOfNibbles op a b 0 := by
  rw [show (0xFFF0 : Word) = wordOfNibbles 0xF 0xF 0xF 0 from rfl, wordOfNibbles_and]
  simp only [nibble_and_ones, nibble_and_zeros]

/-- The mask of the instructions that read the whole word. -/
theorem wordOfNibbles_and_FFFF (op a b c : Nibble) : wordOfNibbles op a b c &&& 0xFFFF = wordOfNibbles op a b c := by
  rw [show (0xFFFF : Word) = wordOfNibbles 0xF 0xF 0xF 0xF from rfl, wordOfNibbles_and]
  simp only [nibble_and_ones]

/-! ## The word of a decoded instruction -/

/-- An instruction stands for a word: it is well-formed, and its word is the word masked by the bits it reads. -/
def StandsFor (w : Word) (i : Instr) : Prop := i.wellFormed = true ∧ encode i = w &&& i.readMask

theorem standsFor_of_FF00 {op a b c : Nibble} {i : Instr} (hw : i.wellFormed = true) (hm : i.readMask = 0xFF00)
    (he : encode i = wordOfNibbles op a 0 0) : StandsFor (wordOfNibbles op a b c) i :=
  ⟨hw, by rw [hm, he, wordOfNibbles_and_FF00]⟩

theorem standsFor_of_FFF0 {op a b c : Nibble} {i : Instr} (hw : i.wellFormed = true) (hm : i.readMask = 0xFFF0)
    (he : encode i = wordOfNibbles op a b 0) : StandsFor (wordOfNibbles op a b c) i :=
  ⟨hw, by rw [hm, he, wordOfNibbles_and_FFF0]⟩

theorem standsFor_of_FFFF {op a b c : Nibble} {i : Instr} (hw : i.wellFormed = true) (hm : i.readMask = 0xFFFF)
    (he : encode i = wordOfNibbles op a b c) : StandsFor (wordOfNibbles op a b c) i :=
  ⟨hw, by rw [hm, he, wordOfNibbles_and_FFFF]⟩

/-- The two nibbles of OR's immediate are those of the word. -/
theorem encode_orImm_append (ra : Reg) (b c : Nibble) :
    encode (.orImm ra (b ++ c)) = wordOfNibbles 0x4 (nibbleOf ra) b c := by
  have hb := b.isLt; have hc := c.isLt
  have hi : (b ++ c : Byte).extractLsb' 4 4 = b := by
    apply BitVec.eq_of_toNat_eq
    rw [BitVec.extractLsb'_toNat, toNat_append_nibble]
    omega
  have lo : (b ++ c : Byte).extractLsb' 0 4 = c := by
    apply BitVec.eq_of_toNat_eq
    rw [BitVec.extractLsb'_toNat, toNat_append_nibble]
    omega
  rw [encode, hi, lo]

theorem standsFor_orImm (a b c : Nibble) :
    StandsFor (wordOfNibbles 0x4 a b c) (primaryDispatch (nibbleFields 0x4 a b c)) := by
  have hi : primaryDispatch (nibbleFields 0x4 a b c) = .orImm (regOf a) (b ++ c) :=
    congrArg (Instr.orImm (regOf a)) (imm8Of_nibbleFields 0x4 a b c)
  rw [hi]
  exact standsFor_of_FFFF rfl rfl (encode_orImm_append (regOf a) b c)

theorem standsFor_reservedStack {b : Nibble} (c : Nibble) (hb : 0x8#4 ≤ b) :
    StandsFor (wordOfNibbles 0x0 0x9 b c) (stackDispatch (nibbleFields 0x0 0x9 b c)) := by
  rw [← decodeWord_stack, decodeWord_reservedStack8F c hb]
  exact standsFor_of_FFF0 (reservedStack8F_wellFormed.mpr hb) rfl rfl

theorem standsFor_stack (b c : Nibble) :
    StandsFor (wordOfNibbles 0x0 0x9 b c) (stackDispatch (nibbleFields 0x0 0x9 b c)) := by
  induction b using nibble_cases with
  | h1 | h2 | h4 | h6 | h7 => exact standsFor_of_FFFF rfl rfl rfl
  | h0 | h3 | h5 => exact standsFor_of_FFF0 rfl rfl rfl
  | h8 | h9 | hA | hB | hC | hD | hE | hF =>
    exact standsFor_reservedStack c (by decide)

theorem standsFor_extended (a b c : Nibble) :
    StandsFor (wordOfNibbles 0x0 a b c) (extendedDispatch (nibbleFields 0x0 a b c)) := by
  induction a using nibble_cases with
  | h9 => exact standsFor_stack b c
  | h1 | h2 | h3 | h6 | h7 => exact standsFor_of_FFFF rfl rfl rfl
  | h4 => exact standsFor_of_FFF0 rfl rfl rfl
  | h0 | h5 | h8 | hA | hB | hC | hD | hE | hF => exact standsFor_of_FF00 rfl rfl rfl

theorem standsFor_primary (op a b c : Nibble) :
    StandsFor (wordOfNibbles op a b c) (primaryDispatch (nibbleFields op a b c)) := by
  induction op using nibble_cases with
  | h0 => exact standsFor_extended a b c
  | h4 => exact standsFor_orImm a b c
  | h1 | h2 | h3 | h8 => exact standsFor_of_FF00 rfl rfl rfl
  | h5 | h6 | h7 | h9 | hA | hB | hC | hD | hE | hF => exact standsFor_of_FFF0 rfl rfl rfl

/-- Settles O2, by the selectors of the three maps: each arm keeps the nibbles it reads and no other. -/
theorem encodeOfDecodeClearsUnreadBits : Obligations.EncodeOfDecodeClearsUnreadBits :=
  word_cases (P := StandsFor) standsFor_primary

/-! ## The row of a word -/

/-- Every well-formed instruction's word belongs to its row. -/
theorem encodesRow (i : Instr) : Laws.EncodesRow.Statement i := by
  open Laws in
  cases i with
  | jmp ra => exact EncodesRow.jmp ra
  | gm ra => exact EncodesRow.gm ra
  | sm ra => exact EncodesRow.sm ra
  | orImm ra v => exact EncodesRow.orImm ra v
  | orr ra rb => exact EncodesRow.orr ra rb
  | and ra rb => exact EncodesRow.and ra rb
  | xor ra rb => exact EncodesRow.xor ra rb
  | not ra => exact EncodesRow.not ra
  | shl ra rb => exact EncodesRow.shl ra rb
  | shr ra rb => exact EncodesRow.shr ra rb
  | add ra rb => exact EncodesRow.add ra rb
  | sub ra rb => exact EncodesRow.sub ra rb
  | mul ra rb => exact EncodesRow.mul ra rb
  | div ra rb => exact EncodesRow.div ra rb
  | mod ra rb => exact EncodesRow.mod ra rb
  | nop => exact EncodesRow.nop
  | cmpEq rb rc => exact EncodesRow.cmpEq rb rc
  | cmpGt rb rc => exact EncodesRow.cmpGt rb rc
  | cmpLt rb rc => exact EncodesRow.cmpLt rb rc
  | loadImm rb => exact EncodesRow.loadImm rb
  | jmpImm => exact EncodesRow.jmpImm
  | copy rb rc => exact EncodesRow.copy rb rc
  | swap rb rc => exact EncodesRow.swap rb rc
  | ujmp => exact EncodesRow.ujmp
  | reservedExtAB n => exact EncodesRow.reservedExtAB n
  | reservedExtCF n => exact EncodesRow.reservedExtCF n
  | pushImm => exact EncodesRow.pushImm
  | pushReg rc => exact EncodesRow.pushReg rc
  | popReg rc => exact EncodesRow.popReg rc
  | callAddr => exact EncodesRow.callAddr
  | callReg rc => exact EncodesRow.callReg rc
  | ret => exact EncodesRow.ret
  | storeAddr rc => exact EncodesRow.storeAddr rc
  | loadAddr rc => exact EncodesRow.loadAddr rc
  | reservedStack8F n => exact EncodesRow.reservedStack8F n

/-- Two rows of the table that agree on the bits both fix are one row. -/
theorem row_unique_of_agree :
    ∀ r ∈ opcodeTable, ∀ q ∈ opcodeTable, r.pattern &&& q.mask = q.pattern &&& r.mask → q = r := by
  decide

/-- No word belongs to two rows. -/
theorem row_unique {w : Word} {r q : OpcodeRow} (hr : r ∈ opcodeTable) (hq : q ∈ opcodeTable) (hrw : r.covers w = true)
    (hqw : q.covers w = true) : q = r := by
  have er : w &&& r.mask = r.pattern := beq_iff_eq.mp hrw
  have eq : w &&& q.mask = q.pattern := beq_iff_eq.mp hqw
  apply row_unique_of_agree r hr q hq
  calc r.pattern &&& q.mask = w &&& r.mask &&& q.mask := by rw [er]
    _ = w &&& q.mask &&& r.mask := by rw [BitVec.and_assoc, BitVec.and_comm r.mask, BitVec.and_assoc]
    _ = q.pattern &&& r.mask := by rw [eq]

/-- The selector bits of each row are among the bits read by every instruction of its mnemonic. -/
theorem mask_subset_readMask (i : Instr) :
    ∀ row ∈ opcodeTable, row.mnemonic = i.mnemonic → i.readMask &&& row.mask = row.mask := by
  cases i <;> simp only [Instr.mnemonic, Instr.readMask] <;> decide

/-- Settles O4: the row of a word is the row of its instruction's word, which has the same selector bits, and the
patterns of two rows differ in a bit both fix. -/
theorem everyWordIsOneRowOfTheTable : Obligations.EveryWordIsOneRowOfTheTable := by
  intro w
  obtain ⟨hwf, hmask⟩ := encodeOfDecodeClearsUnreadBits w
  obtain ⟨row, hrow, hname, -, hcov⟩ := encodesRow (decodeWord w) hwf
  have hw : row.covers w = true := by
    rw [OpcodeRow.covers, hmask, BitVec.and_assoc, mask_subset_readMask _ row hrow hname] at hcov
    exact hcov
  exact ⟨row, hrow, hw, hname, fun other hother hcovers => row_unique hrow hother hw hcovers⟩

/-! ## The length of a word -/

/-- The 4-byte test on the nibbles of a word (R66). -/
theorem wordLength_nibbles (op a b c : Nibble) :
    wordLength (wordOfNibbles op a b c) =
      if op = 0 ∧ ((a = 4 ∨ a = 5 ∨ a = 8) ∨ (a = 9 ∧ (b = 0 ∨ b = 3 ∨ b = 6 ∨ b = 7))) then 4 else 2 := by
  rw [wordLength, fieldsOf_wordOfNibbles]

theorem length_stack (b c : Nibble) :
    (stackDispatch (nibbleFields 0x0 0x9 b c)).length = if b = 0 ∨ b = 3 ∨ b = 6 ∨ b = 7 then 4 else 2 := by
  induction b using nibble_cases <;> rfl

theorem length_extended (a b c : Nibble) :
    (extendedDispatch (nibbleFields 0x0 a b c)).length =
      if (a = 4 ∨ a = 5 ∨ a = 8) ∨ (a = 9 ∧ (b = 0 ∨ b = 3 ∨ b = 6 ∨ b = 7)) then 4 else 2 := by
  induction a using nibble_cases with
  | h9 =>
    rw [show extendedDispatch (nibbleFields 0x0 0x9 b c) = stackDispatch (nibbleFields 0x0 0x9 b c) from rfl,
      length_stack]
    simp
  | h0 | h1 | h2 | h3 | h4 | h5 | h6 | h7 | h8 | hA | hB | hC | hD | hE | hF => rfl

/-- Settles O5, by the selectors: a primary word has two bytes, an extended or stack word those of its sub-opcode. -/
theorem lengthIsToldFromTheWord : Obligations.LengthIsToldFromTheWord := by
  refine word_cases (P := fun w i => wordLength w = i.length) fun op a b c => ?_
  rw [wordLength_nibbles]
  induction op using nibble_cases with
  | h0 =>
    rw [show primaryDispatch (nibbleFields 0x0 a b c) = extendedDispatch (nibbleFields 0x0 a b c) from rfl,
      length_extended]
    simp
  | h1 | h2 | h3 | h4 | h5 | h6 | h7 | h8 | h9 | hA | hB | hC | hD | hE | hF => rfl

/-- A word decodes to what the opcode map gives for its four nibbles. -/
theorem decodeWord_of_nibbles {w : Word} {i : Instr} (op a b c : Nibble) (hw : wordOfNibbles op a b c = w)
    (hi : primaryDispatch (nibbleFields op a b c) = i) : decodeWord w = i := by
  rw [← hw, ← hi]
  exact decodeWord_nibbles op a b c

/-- Settles O6: each word is its four nibbles, which the opcode map sends to its instruction. -/
theorem wordsOfTheSpecDecode : Obligations.WordsOfTheSpecDecode :=
  ⟨decodeWord_of_nibbles 0xB 0x3 0x4 0x0 rfl rfl, decodeWord_of_nibbles 0x0 0x4 0x3 0x0 rfl rfl,
    decodeWord_of_nibbles 0x0 0x9 0x2 0x6 rfl rfl, decodeWord_of_nibbles 0x4 0x1 0xF 0xF rfl rfl,
    decodeWord_of_nibbles 0x1 0x5 0x0 0x0 rfl rfl, decodeWord_of_nibbles 0x3 0xF 0x0 0x0 rfl rfl,
    decodeWord_of_nibbles 0x0 0x3 0x3 0x4 rfl rfl, decodeWord_of_nibbles 0x0 0x9 0x6 0x4 rfl rfl,
    decodeWord_of_nibbles 0x0 0x9 0x5 0x0 rfl rfl, decodeWord_of_nibbles 0x0 0xA 0x0 0x0 rfl rfl,
    decodeWord_of_nibbles 0x0 0xF 0xF 0xF rfl rfl, decodeWord_of_nibbles 0x0 0x9 0xF 0x0 rfl rfl⟩

end Sys2Proof


/-! The rest of the ALU and of the comparisons: the shifts (R125, R126), DIV and MOD by whether the divisor is 0 (R130
to R132), and CMP_GT (R153). -/
namespace Sys2Proof

namespace Machine

/-- SHL by the count modulo 16 (R125). -/
theorem exec_shl (ra rb : Reg) (s : State) :
    exec (.shl ra rb) s = .next (s.setReg ra (s.reg ra <<< ((s.reg rb).toNat % 16))) := by
  rw [← shiftCount_eq_mod]
  rfl

/-- SHR by the count modulo 16 (R126). -/
theorem exec_shr (ra rb : Reg) (s : State) :
    exec (.shr ra rb) s = .next (s.setReg ra (s.reg ra >>> ((s.reg rb).toNat % 16))) := by
  rw [← shiftCount_eq_mod]
  rfl

/-- CMP_GT, unsigned (R153). -/
theorem exec_cmpGt (rb rc : Reg) (s : State) :
    exec (.cmpGt rb rc) s = .next (s.setReg Reg.cr (if (s.reg rb).toNat > (s.reg rc).toNat then 0 else 1)) :=
  congrArg Host.Outcome.next (setCondition_decide s ((s.reg rb).toNat > (s.reg rc).toNat))

/-- DIV by 0 is ArithmeticFault in its own state (R130). -/
theorem exec_div_zero (ra : Reg) {rb : Reg} {s : State} (h : s.reg rb = 0) :
    exec (.div ra rb) s = .fault (.err .arithmeticFault s) :=
  if_pos h

/-- MOD by 0 is ArithmeticFault in its own state (R131). -/
theorem exec_mod_zero (ra : Reg) {rb : Reg} {s : State} (h : s.reg rb = 0) :
    exec (.mod ra rb) s = .fault (.err .arithmeticFault s) :=
  if_pos h

/-- The quotient of the numbers is the quotient of the words. -/
theorem ofNat_div (a b : Word) : BitVec.ofNat 16 (a.toNat / b.toNat) = a / b := by
  have hle := Nat.div_le_self a.toNat b.toNat
  have ha := a.isLt
  apply BitVec.eq_of_toNat_eq
  rw [BitVec.toNat_udiv, BitVec.toNat_ofNat, Nat.mod_eq_of_lt (by omega)]

/-- The remainder of the numbers is the remainder of the words. -/
theorem ofNat_mod (a b : Word) : BitVec.ofNat 16 (a.toNat % b.toNat) = a % b := by
  have hle := Nat.mod_le a.toNat b.toNat
  have ha := a.isLt
  apply BitVec.eq_of_toNat_eq
  rw [BitVec.toNat_umod, BitVec.toNat_ofNat, Nat.mod_eq_of_lt (by omega)]

/-- DIV by another divisor writes the unsigned quotient (R130). -/
theorem exec_div (ra : Reg) {rb : Reg} {s : State} (h : s.reg rb ≠ 0) :
    exec (.div ra rb) s = .next (s.setReg ra (s.reg ra / s.reg rb)) := by
  rw [← ofNat_div]
  exact if_neg h

/-- MOD by another divisor writes the unsigned remainder (R131). -/
theorem exec_mod (ra : Reg) {rb : Reg} {s : State} (h : s.reg rb ≠ 0) :
    exec (.mod ra rb) s = .next (s.setReg ra (s.reg ra % s.reg rb)) := by
  rw [← ofNat_mod]
  exact if_neg h

end Machine

/-- Settles O18: each shift is one register write, of its value by the count modulo 16. -/
theorem shiftsTakeTheCountModuloSixteen : Obligations.ShiftsTakeTheCountModuloSixteen := fun ra rb s =>
  ⟨Machine.frame_of_eq_setReg (Machine.exec_shl ra rb s), Machine.frame_of_eq_setReg (Machine.exec_shr ra rb s)⟩

/-- Settles O20, by whether the divisor is 0. -/
theorem divisionAndRemainder : Obligations.DivisionAndRemainder := by
  refine fun ra rb s => ⟨fun hzero => ?zero, fun hdivisor => ?divisor⟩
  case zero => exact ⟨Machine.exec_div_zero ra hzero, Machine.exec_mod_zero ra hzero⟩
  case divisor =>
    exact ⟨Machine.frame_of_eq_setReg (Machine.exec_div ra hdivisor),
      Machine.frame_of_eq_setReg (Machine.exec_mod ra hdivisor)⟩

/-- Settles O21: the numbers of the two results are the quotient and the remainder of the numbers before, which
recompose the dividend. -/
theorem quotientAndRemainderRecompose : Obligations.QuotientAndRemainderRecompose := by
  intro ra rb s hdivisor
  refine ⟨_, _, Machine.exec_div ra hdivisor, Machine.exec_mod ra hdivisor, ?_, ?_⟩
  · rw [Machine.reg_setReg, Machine.reg_setReg, if_pos rfl, if_pos rfl, BitVec.toNat_udiv, BitVec.toNat_umod,
      Nat.div_add_mod']
  · rw [Machine.reg_setReg, if_pos rfl, BitVec.toNat_umod]
    have hpos : (s.reg rb).toNat ≠ 0 := fun h => hdivisor (BitVec.eq_of_toNat_eq h)
    exact Nat.mod_lt _ (Nat.pos_of_ne_zero hpos)

/-- Settles O24: the comparison is one write of `cr`. -/
theorem compareGreaterIsUnsigned : Obligations.CompareGreaterIsUnsigned := fun rb rc s =>
  Machine.frame_of_eq_setReg (Machine.exec_cmpGt rb rc s)

end Sys2Proof


/-! The instructions that use the bus, on any bus (41_primary_control_memory.md, 43_extended.md, 44_stack_memory.md):
each handler is its transactions followed by its register writes. -/
namespace Sys2Proof

namespace Machine

/-! ## What each handler does with the bus -/

/-- GM (R103). -/
theorem exec_gm (ra : Reg) (s : State) :
    exec (.gm ra) s = (busRead s.ix s).finish fun v s1 => .next (s1.setReg ra (0#8 ++ v)) := by
  simp only [← zext16_eq_append]
  rfl

/-- LOAD_IMM (R155). -/
theorem exec_loadImm (rb : Reg) (s : State) :
    exec (.loadImm rb) s = (memRead16 s.pc s).finish fun v s1 => .next (s1.setReg rb v).advance := rfl

/-- JMP_IMM (R156). -/
theorem exec_jmpImm (s : State) :
    exec .jmpImm s =
      (memRead16 s.pc s).finish fun v s1 => .next (s1.setReg Reg.pc (if s.cr = 0 then v else s.pc + 2)) := by
  simp only [← taken_iff]
  rfl

/-- UJMP (R159). -/
theorem exec_ujmp (s : State) :
    exec .ujmp s = (memRead16 s.pc s).finish fun v s1 => .next (s1.setReg Reg.pc v) := rfl

/-- PUSH_REG (R182). -/
theorem exec_pushReg (rc : Reg) (s : State) :
    exec (.pushReg rc) s = (memWrite16 s.sp (s.reg rc) s).finish fun _ s1 => .next (s1.setReg Reg.sp (s.sp + 2)) := rfl

/-- POP_REG (R183). -/
theorem exec_popReg (rc : Reg) (s : State) :
    exec (.popReg rc) s =
      (memRead16 (s.sp - 2) s).finish fun v s1 => .next ((s1.setReg Reg.sp (s.sp - 2)).setReg rc v) := rfl

/-- CALL_REG (R185). -/
theorem exec_callReg (rc : Reg) (s : State) :
    exec (.callReg rc) s =
      (memWrite16 s.sp s.pc s).finish fun _ s1 =>
        .next ((s1.setReg Reg.pc (s.reg rc)).setReg Reg.sp (s.sp + 2)) := rfl

/-- RET (R186). -/
theorem exec_ret (s : State) :
    exec .ret s =
      (memRead16 (s.sp - 2) s).finish fun v s1 => .next ((s1.setReg Reg.sp (s.sp - 2)).setReg Reg.pc v) := rfl

/-- A sequence of operations ends a handler as its second part does after its first. -/
theorem andThen_finish {α β : Type} (r : Reply α) (f : α → State → Reply β)
    (g : β → State → Host.Outcome State Fault Refusal) :
    (r.andThen f).finish g = r.finish fun v s => (f v s).finish g := by
  cases r <;> rfl

/-- The rest of a handler matters only where its first part answers. -/
theorem finish_congr {α : Type} {r : Reply α} {f g : α → State → Host.Outcome State Fault Refusal}
    (h : ∀ v s, r = .ok v s → f v s = g v s) : r.finish f = r.finish g := by
  cases r with
  | ok v s => exact h v s rfl
  | stop w => rfl

/-- A two-byte read that answers writes no register. -/
theorem memRead16_ok_regs {a v : Word} {s s1 : State} (h : memRead16 a s = .ok v s1) : s1.regs = s.regs := by
  obtain ⟨_, hafter, -⟩ := (runs_memRead16 a s).ok v s1 h
  exact hafter.regs

/-- A two-byte write that answers writes no register. -/
theorem memWrite16_ok_regs {a v : Word} {s s1 : State} (h : memWrite16 a v s = .ok () s1) : s1.regs = s.regs := by
  obtain ⟨_, hafter, -⟩ := (runs_memWrite16 a v s).ok () s1 h
  exact hafter.regs

/-- PUSH_IMM (R181). The slot is where sp points before the instruction. -/
theorem exec_pushImm (s : State) :
    exec .pushImm s =
      (memRead16 s.pc s).finish fun v s1 => (memWrite16 s.sp v s1).finish fun _ s2 =>
        .next ((s2.setReg Reg.pc (s.pc + 2)).setReg Reg.sp (s.sp + 2)) := by
  have hrun : exec .pushImm s = ((memRead16 s.pc s).andThen fun v s1 => memWrite16 s1.sp v s1).finish fun _ s2 =>
      .next ((s2.setReg Reg.pc (s.pc + 2)).setReg Reg.sp (s.sp + 2)) := rfl
  rw [hrun, andThen_finish]
  refine finish_congr fun v s1 h => ?_
  rw [State.sp, reg_congr (memRead16_ok_regs h)]
  rfl

/-- CALL_ADDR (R184). The target is read at P after the push. -/
theorem exec_callAddr (s : State) :
    exec .callAddr s =
      (memWrite16 s.sp (s.pc + 2) s).finish fun _ s1 => (memRead16 s.pc s1).finish fun t s2 =>
        .next ((s2.setReg Reg.pc t).setReg Reg.sp (s.sp + 2)) := by
  have hrun : exec .callAddr s =
      ((memWrite16 s.sp (s.pc + 2) s).andThen fun _ s1 => memRead16 s1.pc s1).finish fun t s2 =>
        .next ((s2.setReg Reg.pc t).setReg Reg.sp (s.sp + 2)) := rfl
  rw [hrun, andThen_finish]
  refine finish_congr fun _ s1 h => ?_
  rw [State.pc, reg_congr (memWrite16_ok_regs h)]
  rfl

/-- STORE_ADDR (R187). -/
theorem exec_storeAddr (rc : Reg) (s : State) :
    exec (.storeAddr rc) s =
      (memRead16 s.pc s).finish fun a s1 => (memWrite16 a (s.reg rc) s1).finish fun _ s2 =>
        .next (s2.setReg Reg.pc (s.pc + 2)) :=
  andThen_finish ..

/-- LOAD_ADDR (R188). -/
theorem exec_loadAddr (rc : Reg) (s : State) :
    exec (.loadAddr rc) s =
      (memRead16 s.pc s).finish fun a s1 => (memRead16 a s1).finish fun v s2 => .next (s2.setReg rc v).advance :=
  andThen_finish ..

/-! ## Two accesses one after the other -/

/-- Two reads that answer leave every byte of memory as it was, and the register writes after them do too. -/
theorem readsPair_memoryKept {a : Word} {s s' t : State} {lo hi : Byte} (h : readsPair a s lo hi s')
    (ht : t.bus = s'.bus) : memoryKept s t := by
  obtain ⟨-, hcells⟩ := readsPair_after h
  intro b
  rw [State.byteAt, ht, hcells, State.byteAt]

/-- What keeps memory, and then keeps it but for a word, keeps it but for the word. -/
theorem memoryKeptButWord_of_kept {a : Word} {s t u : State} (h : memoryKept s t) (g : memoryKeptButWord a t u) :
    memoryKeptButWord a s u :=
  fun b hb hb' => (g b hb hb').trans (h b)

/-- What keeps memory but for a word, and then keeps it, keeps it but for the word. -/
theorem memoryKeptButWord_then_kept {a : Word} {s t u : State} (h : memoryKeptButWord a s t) (g : memoryKept t u) :
    memoryKeptButWord a s u :=
  fun b hb hb' => (g b).trans (h b hb hb')

theorem readsPair_reg {a : Word} {s s' : State} {lo hi : Byte} (h : readsPair a s lo hi s') (r : Reg) :
    s'.reg r = s.reg r :=
  (readsPair_after h).1.reg r

theorem writesPair_reg {a : Word} {s s' : State} {lo hi : Byte} (h : writesPair a lo hi s s') (r : Reg) :
    s'.reg r = s.reg r :=
  (writesPair_after h).1.reg r

/-- Two reads that answer hand the rest of the handler their word. -/
theorem finish_readsPair {a : Word} {s s' : State} {lo hi : Byte} {f : Word → State → Host.Outcome State Fault Refusal}
    (h : readsPair a s lo hi s') : (memRead16 a s).finish f = f (hi ++ lo) s' := by
  rw [memRead16_of_readsPair h, finish_ok]

theorem finish_readsPairStops {a : Word} {s : State} {w : Fault} {f : Word → State → Host.Outcome State Fault Refusal}
    (h : readsPairStops a s w) : (memRead16 a s).finish f = .fault w := by
  rw [memRead16_of_readsPairStops h, finish_stop]

/-- Two writes that answer let the rest of the handler go on. -/
theorem finish_writesPair {a v : Word} {s s' : State} {lo hi : Byte}
    {f : Unit → State → Host.Outcome State Fault Refusal} (hv : v = hi ++ lo) (h : writesPair a lo hi s s') :
    (memWrite16 a v s).finish f = f () s' := by
  rw [hv, memWrite16_of_writesPair h, finish_ok]

theorem finish_writesPairStops {a v : Word} {s : State} {lo hi : Byte} {w : Fault}
    {f : Unit → State → Host.Outcome State Fault Refusal} (hv : v = hi ++ lo) (h : writesPairStops a lo hi s w) :
    (memWrite16 a v s).finish f = .fault w := by
  rw [hv, memWrite16_of_writesPairStops h, finish_stop]

/-- The registers after a load and the advance past its operand: into x15 both land (D8). -/
theorem reg_setReg_advance (s : State) (rb r : Reg) (v : Word) :
    (s.setReg rb v).advance.reg r =
      if r = Reg.pc then (if rb = Reg.pc then v + 2 else s.pc + 2) else if r = rb then v else s.reg r := by
  rw [reg_advance, State.pc, reg_setReg, reg_setReg]
  by_cases hrb : rb = Reg.pc
  · simp only [hrb, if_true]
    rfl
  · simp only [hrb, Ne.symm hrb, if_false]
    rfl

end Machine

open Machine

/-- Settles O26, by how the bus answers the read. -/
theorem getMemoryReadsThroughTheIndex : Obligations.GetMemoryReadsThroughTheIndex := by
  refine fun ra s => ⟨fun v s1 hok => ?_, fun f hstop => ?_⟩
  · obtain ⟨hafter, hcells⟩ := busRead_ok hok
    refine ⟨s1.setReg ra (0#8 ++ v), by rw [exec_gm, hok, finish_ok], fun r => ?_, ⟨rfl, rfl, rfl⟩, fun b => ?_⟩
    · rw [reg_setReg, hafter.reg]
    · rw [setReg_byteAt, State.byteAt, hcells, State.byteAt]
  · obtain ⟨_, _, hafter, -⟩ := busRead_stop hstop
    exact ⟨by rw [exec_gm, hstop, finish_stop], hafter.regs⟩

/-- Settles O28, by how the bus answers the operand reads. -/
theorem loadImmediateTakesTheInlineOperand : Obligations.LoadImmediateTakesTheInlineOperand := by
  refine fun rb s => ⟨fun lo hi s2 hr => ?_, fun f hstop => ?_⟩
  · refine ⟨_, (exec_loadImm rb s).trans (finish_readsPair hr), fun r => ?_, ⟨rfl, rfl, rfl⟩,
      readsPair_memoryKept hr rfl⟩
    rw [reg_setReg_advance, State.pc, readsPair_reg hr, readsPair_reg hr]
    rfl
  · exact ⟨(exec_loadImm rb s).trans (finish_readsPairStops hstop), readsPairStops_regs hstop⟩

/-- Settles O29, by how the bus answers the operand reads, which both instructions make first. -/
theorem jumpsToTheInlineAddress : Obligations.JumpsToTheInlineAddress := by
  refine fun s => ⟨fun lo hi s2 hr => ⟨?jmpImm, ?ujmp⟩, fun f hstop => ⟨?jmpImmStops, ?ujmpStops⟩⟩
  case jmpImm =>
    refine ⟨_, (exec_jmpImm s).trans (finish_readsPair hr), fun r => ?_, ⟨rfl, rfl, rfl⟩,
      readsPair_memoryKept hr rfl⟩
    rw [reg_setReg, readsPair_reg hr]
  case ujmp =>
    refine ⟨_, (exec_ujmp s).trans (finish_readsPair hr), fun r => ?_, ⟨rfl, rfl, rfl⟩,
      readsPair_memoryKept hr rfl⟩
    rw [reg_setReg, readsPair_reg hr]
  case jmpImmStops => exact ⟨(exec_jmpImm s).trans (finish_readsPairStops hstop), readsPairStops_regs hstop⟩
  case ujmpStops => exact ⟨(exec_ujmp s).trans (finish_readsPairStops hstop), readsPairStops_regs hstop⟩

/-- Settles O30, by how the bus answers the operand reads and then the writes of the push. -/
theorem pushImmediatePushesTheOperand : Obligations.PushImmediatePushesTheOperand := by
  refine fun s =>
    ⟨fun lo hi s2 s4 hr hw => ?completes, fun f hstop => ?readStops, fun lo hi s2 f hr hstop => ?writeStops⟩
  case completes =>
    refine ⟨_, (exec_pushImm s).trans ((finish_readsPair hr).trans (finish_writesPair rfl hw)), fun r => ?_,
      ⟨rfl, rfl, rfl⟩, memoryKeptButWord_of_kept (readsPair_memoryKept hr rfl) (writesPair_after hw).2⟩
    rw [reg_setReg, reg_setReg, writesPair_reg hw, readsPair_reg hr]
  case readStops => exact ⟨(exec_pushImm s).trans (finish_readsPairStops hstop), readsPairStops_regs hstop⟩
  case writeStops =>
    exact ⟨(exec_pushImm s).trans ((finish_readsPair hr).trans (finish_writesPairStops rfl hstop)),
      (writesPairStops_regs hstop).trans (readsPair_after hr).1.regs⟩

/-- Settles O31, by how the bus answers the writes of the push. -/
theorem pushRegisterPushesTheValue : Obligations.PushRegisterPushesTheValue := by
  refine fun rc lo hi s hval => ⟨fun s2 hw => ?_, fun f hstop => ?_⟩
  · refine ⟨_, (exec_pushReg rc s).trans (finish_writesPair hval hw), fun r => ?_, ⟨rfl, rfl, rfl⟩,
      (writesPair_after hw).2⟩
    rw [reg_setReg, writesPair_reg hw]
  · exact ⟨(exec_pushReg rc s).trans (finish_writesPairStops hval hstop), writesPairStops_regs hstop⟩

/-- Settles O32, by how the bus answers the reads of the pop. -/
theorem popRegisterPopsTheValue : Obligations.PopRegisterPopsTheValue := by
  refine fun rc s => ⟨fun lo hi s2 hr => ?_, fun f hstop => ?_⟩
  · refine ⟨_, (exec_popReg rc s).trans (finish_readsPair hr), fun r => ?_, ⟨rfl, rfl, rfl⟩,
      readsPair_memoryKept hr rfl⟩
    rw [reg_setReg, reg_setReg, readsPair_reg hr]
  · exact ⟨(exec_popReg rc s).trans (finish_readsPairStops hstop), readsPairStops_regs hstop⟩

/-- Settles O33, by how the bus answers the writes of the push and then the reads of the target. -/
theorem callAddressPushesThenReadsTheTarget : Obligations.CallAddressPushesThenReadsTheTarget := by
  refine fun plo phi s hval =>
    ⟨fun lo hi s2 s4 hw hr => ?completes, fun f hstop => ?writeStops, fun s2 f hw hstop => ?readStops⟩
  case completes =>
    refine ⟨_, (exec_callAddr s).trans ((finish_writesPair hval hw).trans (finish_readsPair hr)), fun r => ?_,
      ⟨rfl, rfl, rfl⟩, memoryKeptButWord_then_kept (writesPair_after hw).2 (readsPair_memoryKept hr rfl)⟩
    rw [reg_setReg, reg_setReg, readsPair_reg hr, writesPair_reg hw]
  case writeStops => exact ⟨(exec_callAddr s).trans (finish_writesPairStops hval hstop), writesPairStops_regs hstop⟩
  case readStops =>
    exact ⟨(exec_callAddr s).trans ((finish_writesPair hval hw).trans (finish_readsPairStops hstop)),
      (readsPairStops_regs hstop).trans (writesPair_after hw).1.regs⟩

/-- Settles O34, by how the bus answers the writes of the push. -/
theorem callRegisterPushesTheNextAddress : Obligations.CallRegisterPushesTheNextAddress := by
  refine fun rc plo phi s hval => ⟨fun s2 hw => ?_, fun f hstop => ?_⟩
  · refine ⟨_, (exec_callReg rc s).trans (finish_writesPair hval hw), fun r => ?_, ⟨rfl, rfl, rfl⟩,
      (writesPair_after hw).2⟩
    rw [reg_setReg, reg_setReg, writesPair_reg hw]
  · exact ⟨(exec_callReg rc s).trans (finish_writesPairStops hval hstop), writesPairStops_regs hstop⟩

/-- Settles O35, by how the bus answers the reads of the pop. -/
theorem returnPopsTheProgramCounter : Obligations.ReturnPopsTheProgramCounter := by
  refine fun s => ⟨fun lo hi s2 hr => ?_, fun f hstop => ?_⟩
  · refine ⟨_, (exec_ret s).trans (finish_readsPair hr), fun r => ?_, ⟨rfl, rfl, rfl⟩,
      readsPair_memoryKept hr rfl⟩
    rw [reg_setReg, reg_setReg, readsPair_reg hr]
  · exact ⟨(exec_ret s).trans (finish_readsPairStops hstop), readsPairStops_regs hstop⟩

/-- Settles O36, by how the bus answers the operand reads and then the writes at the operand. -/
theorem storeWritesTheRegisterAtTheOperand : Obligations.StoreWritesTheRegisterAtTheOperand := by
  refine fun rc vlo vhi s hval =>
    ⟨fun lo hi s2 s4 hr hw => ?completes, fun f hstop => ?readStops, fun lo hi s2 f hr hstop => ?writeStops⟩
  case completes =>
    refine ⟨_, (exec_storeAddr rc s).trans ((finish_readsPair hr).trans (finish_writesPair hval hw)), fun r => ?_,
      ⟨rfl, rfl, rfl⟩, memoryKeptButWord_of_kept (readsPair_memoryKept hr rfl) (writesPair_after hw).2⟩
    rw [reg_setReg, writesPair_reg hw, readsPair_reg hr]
  case readStops => exact ⟨(exec_storeAddr rc s).trans (finish_readsPairStops hstop), readsPairStops_regs hstop⟩
  case writeStops =>
    exact ⟨(exec_storeAddr rc s).trans ((finish_readsPair hr).trans (finish_writesPairStops hval hstop)),
      (writesPairStops_regs hstop).trans (readsPair_after hr).1.regs⟩

/-- Settles O37, by how the bus answers the operand reads and then the reads at the operand. -/
theorem loadReadsTheWordAtTheOperand : Obligations.LoadReadsTheWordAtTheOperand := by
  refine fun rc s =>
    ⟨fun lo hi s2 vlo vhi s4 hr hr' => ?completes, fun f hstop => ?operandStops, fun lo hi s2 f hr hstop => ?wordStops⟩
  case completes =>
    refine ⟨_, (exec_loadAddr rc s).trans ((finish_readsPair hr).trans (finish_readsPair hr')), fun r => ?_,
      ⟨rfl, rfl, rfl⟩, fun b => (readsPair_memoryKept hr' rfl b).trans (readsPair_memoryKept hr rfl b)⟩
    rw [reg_setReg_advance, State.pc, readsPair_reg hr', readsPair_reg hr', readsPair_reg hr, readsPair_reg hr]
    rfl
  case operandStops => exact ⟨(exec_loadAddr rc s).trans (finish_readsPairStops hstop), readsPairStops_regs hstop⟩
  case wordStops =>
    exact ⟨(exec_loadAddr rc s).trans ((finish_readsPair hr).trans (finish_readsPairStops hstop)),
      (readsPairStops_regs hstop).trans (readsPair_after hr).1.regs⟩

end Sys2Proof


/-! Every handler as a script: the transactions it asks for, each chosen by the registers it started with and the
answers so far, and its register writes after the last (40_step_driver.md R88, R89). What holds of every handler is
proved of scripts, by induction on them. -/
namespace Sys2Proof

namespace Machine

/-- The register file. -/
abbrev Registers := Vector Word 16

/-- A tree of transactions: a read goes on by the byte it gives, a write goes on, and at the end the registers are
written. -/
inductive Script where
  | finish (f : Registers → Registers)
  | read (a : Word) (next : Byte → Script)
  | write (a : Word) (v : Byte) (next : Script)

/-- The transactions of a script, one after another. -/
def Script.ask : Script → State → Reply (Registers → Registers)
  | .finish f, s => .ok f s
  | .read a next, s => (busRead a s).andThen fun v s1 => (next v).ask s1
  | .write a v next, s => (busWrite a v s).andThen fun _ s1 => next.ask s1

/-- A script as a handler: its transactions, and its register writes once each has answered. -/
def Script.run (p : Script) (s : State) : Host.Outcome State Fault Refusal :=
  (p.ask s).finish fun f s1 => .next { s1 with regs := f s1.regs }

/-- A two-byte read in a script. -/
def Script.readWord (a : Word) (next : Word → Script) : Script :=
  .read a fun lo => .read (a + 1) fun hi => next (ofLittleEndian lo hi)

/-- A two-byte write in a script. -/
def Script.writeWord (a v : Word) (next : Script) : Script :=
  .write a (lowByte v) (.write (a + 1) (highByte v) next)

theorem run_read (a : Word) (next : Byte → Script) (s : State) :
    (Script.read a next).run s = (busRead a s).finish fun v s1 => (next v).run s1 :=
  andThen_finish ..

theorem run_write (a : Word) (v : Byte) (next : Script) (s : State) :
    (Script.write a v next).run s = (busWrite a v s).finish fun _ s1 => next.run s1 :=
  andThen_finish ..

theorem run_readWord (a : Word) (next : Word → Script) (s : State) :
    (Script.readWord a next).run s = (memRead16 a s).finish fun v s1 => (next v).run s1 := by
  simp only [Script.readWord, run_read, memRead16, andThen_finish, finish_ok]

theorem run_writeWord (a v : Word) (next : Script) (s : State) :
    (Script.writeWord a v next).run s = (memWrite16 a v s).finish fun _ s1 => next.run s1 := by
  simp only [Script.writeWord, run_write, memWrite16, andThen_finish]

/-! ## The script of each handler -/

/-- The registers an instruction that uses no bus leaves, by its own meaning. -/
def registersAfter (i : Instr) (x : Registers) : Registers :=
  match exec i (State.construct x Bus.plain 0) with
  | .next t => t.regs
  | .fault _ | .refused _ => x

/-- The register file after `pc <- pc + 2`. -/
def Registers.advance (x : Registers) : Registers := x.set 15 (x[Reg.pc] + 2)

/-- The script of an instruction's handler, which the registers alone choose. -/
def script (i : Instr) (x : Registers) : Script :=
  match i with
  | .jmp _ | .orImm _ _ | .orr _ _ | .and _ _ | .xor _ _ | .not _ | .shl _ _ | .shr _ _
  | .add _ _ | .sub _ _ | .mul _ _ | .div _ _ | .mod _ _ | .nop | .cmpEq _ _ | .cmpGt _ _ | .cmpLt _ _
  | .copy _ _ | .swap _ _ | .reservedExtAB _ | .reservedExtCF _ | .reservedStack8F _ => .finish (registersAfter i)
  | .gm ra => .read x[Reg.ix] fun v => .finish fun y => y.set ra (0#8 ++ v)
  | .sm ra => .write x[Reg.ix] (lowByte x[ra]) (.finish id)
  | .loadImm rb => .readWord x[Reg.pc] fun v => .finish fun y => Registers.advance (y.set rb v)
  | .jmpImm => .readWord x[Reg.pc] fun v => .finish fun y => y.set 15 (if x[Reg.cr] = 0 then v else x[Reg.pc] + 2)
  | .ujmp => .readWord x[Reg.pc] fun v => .finish fun y => y.set 15 v
  | .pushImm =>
    .readWord x[Reg.pc] fun v => .writeWord x[Reg.sp] v
      (.finish fun y => (y.set 15 (x[Reg.pc] + 2)).set 13 (x[Reg.sp] + 2))
  | .pushReg rc => .writeWord x[Reg.sp] x[rc] (.finish fun y => y.set 13 (x[Reg.sp] + 2))
  | .popReg rc => .readWord (x[Reg.sp] - 2) fun v => .finish fun y => (y.set 13 (x[Reg.sp] - 2)).set rc v
  | .callAddr =>
    .writeWord x[Reg.sp] (x[Reg.pc] + 2)
      (.readWord x[Reg.pc] fun t => .finish fun y => (y.set 15 t).set 13 (x[Reg.sp] + 2))
  | .callReg rc =>
    .writeWord x[Reg.sp] x[Reg.pc] (.finish fun y => (y.set 15 x[rc]).set 13 (x[Reg.sp] + 2))
  | .ret => .readWord (x[Reg.sp] - 2) fun v => .finish fun y => (y.set 13 (x[Reg.sp] - 2)).set 15 v
  | .storeAddr rc =>
    .readWord x[Reg.pc] fun a => .writeWord a x[rc] (.finish fun y => y.set 15 (x[Reg.pc] + 2))
  | .loadAddr rc =>
    .readWord x[Reg.pc] fun a => .readWord a fun v => .finish fun y => Registers.advance (y.set rc v)

/-- DIV or MOD with a zero divisor, the one handler that stops by itself (R212). -/
def ZeroDivisor (i : Instr) (s : State) : Prop :=
  ∃ ra rb, (i = .div ra rb ∨ i = .mod ra rb) ∧ s.reg rb = 0

/-- A script that only writes registers, by the meaning of an instruction that answers with these registers and
nothing else changed. -/
theorem run_registersAfter {i : Instr} {s : State} {x : Registers} (h : exec i s = .next { s with regs := x })
    (hx : exec i (State.construct s.regs Bus.plain 0) = .next { State.construct s.regs Bus.plain 0 with regs := x }) :
    exec i s = (Script.finish (registersAfter i)).run s := by
  have hreg : registersAfter i s.regs = x := by rw [registersAfter, hx]
  rw [h, ← hreg]
  rfl

theorem exec_jmp_eq_run (ra : Reg) (s : State) : exec (.jmp ra) s = (script (.jmp ra) s.regs).run s := by
  by_cases h : s.cr = 0
  · exact run_registersAfter (exec_jmp_taken ra h)
      (exec_jmp_taken (s := State.construct s.regs Bus.plain 0) ra h)
  · exact run_registersAfter (exec_jmp_not_taken ra h)
      (exec_jmp_not_taken (s := State.construct s.regs Bus.plain 0) ra h)

theorem exec_div_eq_run (ra : Reg) {rb : Reg} {s : State} (h : s.reg rb ≠ 0) :
    exec (.div ra rb) s = (script (.div ra rb) s.regs).run s :=
  run_registersAfter (exec_div ra h) (exec_div (s := State.construct s.regs Bus.plain 0) ra h)

theorem exec_mod_eq_run (ra : Reg) {rb : Reg} {s : State} (h : s.reg rb ≠ 0) :
    exec (.mod ra rb) s = (script (.mod ra rb) s.regs).run s :=
  run_registersAfter (exec_mod ra h) (exec_mod (s := State.construct s.regs Bus.plain 0) ra h)

/-- Every handler runs its script, but for DIV and MOD with a zero divisor. -/
theorem exec_cases (i : Instr) (s : State) :
    (ZeroDivisor i s ∧ exec i s = .fault (.err .arithmeticFault s)) ∨ exec i s = (script i s.regs).run s := by
  cases i with
  | div ra rb =>
    by_cases h : s.reg rb = 0
    · exact .inl ⟨⟨ra, rb, .inl rfl, h⟩, exec_div_zero ra h⟩
    · exact .inr (exec_div_eq_run ra h)
  | mod ra rb =>
    by_cases h : s.reg rb = 0
    · exact .inl ⟨⟨ra, rb, .inr rfl, h⟩, exec_mod_zero ra h⟩
    · exact .inr (exec_mod_eq_run ra h)
  | jmp ra => exact .inr (exec_jmp_eq_run ra s)
  | orImm | orr | and | xor | not | shl | shr | add | sub | mul | nop | cmpEq | cmpGt | cmpLt | copy | swap
  | reservedExtAB | reservedExtCF | reservedStack8F => exact .inr rfl
  | gm ra => rw [exec_gm, script, run_read]; exact .inr rfl
  | sm ra => rw [script, run_write]; exact .inr rfl
  | loadImm rb => rw [exec_loadImm, script, run_readWord]; exact .inr rfl
  | jmpImm => rw [exec_jmpImm, script, run_readWord]; exact .inr rfl
  | ujmp => rw [exec_ujmp, script, run_readWord]; exact .inr rfl
  | pushReg rc => rw [exec_pushReg, script, run_writeWord]; exact .inr rfl
  | popReg rc => rw [exec_popReg, script, run_readWord]; exact .inr rfl
  | callReg rc => rw [exec_callReg, script, run_writeWord]; exact .inr rfl
  | ret => rw [exec_ret, script, run_readWord]; exact .inr rfl
  | pushImm => rw [exec_pushImm, script, run_readWord]; simp only [run_writeWord]; exact .inr rfl
  | callAddr => rw [exec_callAddr, script, run_writeWord]; simp only [run_readWord]; exact .inr rfl
  | storeAddr rc => rw [exec_storeAddr, script, run_readWord]; simp only [run_writeWord]; exact .inr rfl
  | loadAddr rc => rw [exec_loadAddr, script, run_readWord]; simp only [run_readWord]; exact .inr rfl

/-! ## How long a script is -/

/-- A script of at most so many transactions. -/
inductive Script.Within : Script → Nat → Prop
  | finish (f : Registers → Registers) (n : Nat) : Within (.finish f) n
  | read {a : Word} {next : Byte → Script} {n : Nat} (h : ∀ v, Within (next v) n) : Within (.read a next) (n + 1)
  | write {a : Word} {v : Byte} {next : Script} {n : Nat} (h : Within next n) : Within (.write a v next) (n + 1)

theorem within_readWord {a : Word} {next : Word → Script} {n : Nat} (h : ∀ v, (next v).Within n) :
    (Script.readWord a next).Within (n + 2) :=
  .read fun _ => .read fun _ => h _

theorem within_writeWord {a v : Word} {next : Script} {n : Nat} (h : next.Within n) :
    (Script.writeWord a v next).Within (n + 2) :=
  .write (.write h)

/-- No handler makes more than four transactions. -/
theorem within_script (i : Instr) (x : Registers) : (script i x).Within 4 := by
  cases i with
  | jmp | orImm | orr | and | xor | not | shl | shr | add | sub | mul | div | mod | nop | cmpEq | cmpGt | cmpLt | copy
  | swap | reservedExtAB | reservedExtCF | reservedStack8F => exact .finish ..
  | gm => exact .read fun _ => .finish ..
  | sm => exact .write (.finish ..)
  | loadImm | jmpImm | ujmp | popReg | ret => rw [script]; exact within_readWord fun _ => .finish ..
  | pushReg | callReg => rw [script]; exact within_writeWord (.finish ..)
  | pushImm | storeAddr => rw [script]; exact within_readWord fun _ => within_writeWord (.finish ..)
  | callAddr => rw [script]; exact within_writeWord (within_readWord fun _ => .finish ..)
  | loadAddr => rw [script]; exact within_readWord fun _ => within_readWord fun _ => .finish ..

/-- A script makes its transactions one after `Ok` of the other. -/
theorem runs_ask {p : Script} {n : Nat} (h : p.Within n) (s : State) : Runs (p.ask s) s n := by
  induction h generalizing s with
  | finish f n =>
    refine ⟨fun v s' he => ?_, fun w he => ?_⟩
    · obtain ⟨ts, hafter, hok, hlen⟩ := (runs_pure f s).ok v s' he
      exact ⟨ts, hafter, hok, by omega⟩
    · exact absurd he (by simp [Script.ask])
  | read _ ih => rw [Nat.add_comm]; exact (runs_busRead _ s).andThen fun v s1 _ => ih v s1
  | write _ ih => rw [Nat.add_comm]; exact (runs_busWrite _ _ s).andThen fun _ s1 _ => ih s1

/-! ## What every handler does -/

/-- `t` comes from `s` by the transactions `ts`, whatever became of the registers: the handle is the same, the record
has grown by `ts`, each with the handle, and the store keeps its canonical form. -/
structure Issued (s t : State) (ts : List Transaction) : Prop where
  ctx : t.ctx = s.ctx
  log : t.log = s.log ++ ts
  handles : ∀ x ∈ ts, x.handle = s.ctx
  wf : Memory.wf s.bus.cells = true → Memory.wf t.bus.cells = true

/-- Register writes after the transactions change none of that. -/
theorem After.issued {s s1 t : State} {ts : List Transaction} (h : After s s1 ts) (g : sameBus s1 t) :
    Issued s t ts := by
  obtain ⟨hbus, hctx, hlog⟩ := g
  exact ⟨hctx.trans h.ctx, hlog.trans h.log, h.handles, fun hw => hbus ▸ h.wf hw⟩

/-- Transactions after other transactions. -/
theorem Issued.trans {s t u : State} {ts us : List Transaction} (h : Issued s t ts) (g : Issued t u us) :
    Issued s u (ts ++ us) where
  ctx := g.ctx.trans h.ctx
  log := by rw [g.log, h.log, List.append_assoc]
  handles x hx := by
    rcases List.mem_append.mp hx with hx | hx
    · exact h.handles x hx
    · rw [g.handles x hx, h.ctx]
  wf hw := g.wf (h.wf hw)

/-- No handler is refused. -/
theorem exec_ne_refused (i : Instr) (s : State) (r : Refusal) : exec i s ≠ .refused r := by
  rcases exec_cases i s with ⟨-, h⟩ | h
  · rw [h]
    simp
  · rw [h, Script.run]
    cases (script i s.regs).ask s <;> simp

/-- A handler that completes has had each of at most four transactions answered `Ok`. -/
theorem exec_next {i : Instr} {s t : State} (h : exec i s = .next t) :
    ∃ ts, Issued s t ts ∧ (∀ x ∈ ts, x.succeeded = true) ∧ ts.length ≤ 4 := by
  rcases exec_cases i s with ⟨-, hzero⟩ | hrun
  · rw [hzero] at h
    simp at h
  · rw [hrun] at h
    obtain ⟨f, s1, hask, hend⟩ := finish_eq_next.mp h
    obtain ⟨ts, hafter, hok, hlen⟩ := (runs_ask (within_script i s.regs) s).ok f s1 hask
    cases hend
    exact ⟨ts, hafter.issued ⟨rfl, rfl, rfl⟩, hok, hlen⟩

/-- A handler that stops stops at a zero divisor in its own state, or at the last of at most four transactions, the
only one not answered `Ok`, before any register write. -/
theorem exec_fault {i : Instr} {s : State} {w : Fault} (h : exec i s = .fault w) :
    (ZeroDivisor i s ∧ w = .err .arithmeticFault s) ∨
      ∃ ts x, After s w.left (ts ++ [x]) ∧ (∀ y ∈ ts, y.succeeded = true) ∧ x.result = w.result ∧ ts.length < 4 := by
  rcases exec_cases i s with ⟨hdiv, hzero⟩ | hrun
  · rw [hzero] at h
    cases h
    exact .inl ⟨hdiv, rfl⟩
  · rw [hrun] at h
    rcases finish_eq_fault.mp h with hask | ⟨f, s1, -, hend⟩
    · exact .inr ((runs_ask (within_script i s.regs) s).stop w hask)
    · simp at hend

end Machine

open Machine

/-- Settles O10, from what a handler that stops can have done. -/
theorem stoppedHandlerKeepsTheRegisters : Obligations.StoppedHandlerKeepsTheRegisters := by
  intro i s f hfault
  rcases exec_fault hfault with ⟨hzero, rfl⟩ | ⟨ts, x, hafter, hok, hlast, -⟩
  · exact ⟨rfl, rfl, .inl ⟨rfl, hzero⟩⟩
  · refine ⟨hafter.regs, hafter.ctx, .inr ⟨ts, x, ?_, hok, succeeded_of_result hlast⟩⟩
    rw [hafter.log, List.append_assoc]

/-- Settles O11: neither a handler's script nor a fetch ends in a refusal. -/
theorem nothingIsRefused : Obligations.NothingIsRefused := by
  refine fun i s r => ⟨exec_ne_refused i s r, ?_⟩
  rw [step]
  cases fetchInstr s with
  | ok j s1 => exact exec_ne_refused j s1 r
  | stop w => simp

end Sys2Proof


/-! The step as a whole (40_step_driver.md): the fetch and its failures, the step it runs, the transactions of a step,
the invariant, and what becomes of a transaction that is not answered `Ok`. -/
namespace Sys2Proof

namespace Machine

/-! ## The fetch -/

theorem runs_fetchWord (s : State) : Runs (fetchWord s) s 2 :=
  (runs_busRead s.pc s).andThen fun _ s1 _ => ((runs_busRead (s.pc + 1) s1).andThen fun _ s2 _ => runs_pure _ s2)

/-- A fetch that answers has read the word's two bytes. -/
theorem fetchWord_ok {s s2 : State} {w : Word} :
    fetchWord s = .ok w s2 ↔ ∃ b0 b1, readsPair s.pc s b0 b1 s2 ∧ b0 ++ b1 = w := by
  simp only [fetchWord, andThen_eq_ok, Reply.ok.injEq, readsPair]
  constructor
  · rintro ⟨b0, s1, h1, b1, s3, h2, rfl, rfl⟩
    exact ⟨b0, b1, ⟨s1, h1, h2⟩, rfl⟩
  · rintro ⟨b0, b1, ⟨s1, h1, h2⟩, rfl⟩
    exact ⟨b0, s1, h1, b1, s2, h2, rfl, rfl⟩

/-- A fetch stops where one of its two reads does. -/
theorem fetchWord_stop {s : State} {w : Fault} : fetchWord s = .stop w ↔ readsPairStops s.pc s w := by
  simp [fetchWord, andThen_eq_stop, readsPairStops]

/-- Two reads of which one stops leave every byte of memory as it was. -/
theorem readsPairStops_memoryKept {a : Word} {s : State} {w : Fault} (h : readsPairStops a s w) :
    memoryKept s w.left := by
  have hcells : w.left.bus.cells = s.bus.cells := by
    rcases h with h | ⟨lo, s1, h1, h2⟩
    · obtain ⟨_, _, _, hcells⟩ := busRead_stop h
      exact hcells
    · obtain ⟨_, _, _, hcells⟩ := busRead_stop h2
      exact hcells.trans (busRead_ok h1).2
  intro b
  rw [State.byteAt, hcells, State.byteAt]

/-- Away from the sentinel a step is a fetch, the base advance, and the handler of the fetched word. -/
theorem step_of_not_sentinel {s : State} (h : s.pc ≠ 0xFFFF) :
    step s = (fetchWord s).finish fun w s1 => exec (decodeWord w) s1.advance := by
  have hfetch : fetchInstr s = (fetchWord s).andThen fun w s1 => .ok (decodeWord w) s1.advance :=
    if_neg (mt beq_iff_eq.mp h)
  rw [step, hfetch, andThen_finish]
  rfl

/-- A step whose fetch answers runs the fetched instruction after the base advance. -/
theorem step_of_readsPair {s s2 : State} {b0 b1 : Byte} (hpc : s.pc ≠ 0xFFFF) (h : readsPair s.pc s b0 b1 s2) :
    step s = exec (decodeWord (b0 ++ b1)) s2.advance := by
  rw [step_of_not_sentinel hpc, fetchWord_ok.mpr ⟨b0, b1, h, rfl⟩, finish_ok]

/-- The registers the handler starts with: pc is P, every other register as before (R84). -/
theorem reg_advance_of_readsPair {s s2 : State} {a : Word} {b0 b1 : Byte} (h : readsPair a s b0 b1 s2) (r : Reg) :
    s2.advance.reg r = if r = Reg.pc then s.pc + 2 else s.reg r := by
  rw [reg_advance, State.pc, readsPair_reg h, readsPair_reg h]
  rfl

/-- The base advance of a state with these registers. -/
theorem advance_regs_congr {s t : State} (h : t.regs = s.regs) : t.advance.regs = s.advance.regs := by
  simp only [State.advance, State.setReg, State.pc, State.reg, h]

/-! ## What every step does -/

/-- A step stops at the sentinel, at a zero divisor after its fetch, or at its last transaction, the only one not
answered `Ok`; the registers are then those before the step or those after the base advance. -/
inductive StepStops (s : State) (w : Fault) : Prop
  | sentinel (hpc : s.pc = 0xFFFF) (hw : w = .err .instructionInvalid s)
  | zeroDivisor {b0 b1 : Byte} {s2 : State} (hpc : s.pc ≠ 0xFFFF) (hfetch : readsPair s.pc s b0 b1 s2)
      (hzero : ZeroDivisor (decodeWord (b0 ++ b1)) s2.advance) (hw : w = .err .arithmeticFault s2.advance)
  | transaction {ts : List Transaction} {x : Transaction} (hissued : Issued s w.left (ts ++ [x]))
      (hok : ∀ y ∈ ts, y.succeeded = true) (hx : x.result = w.result) (hlen : ts.length < 6)
      (hregs : w.left.regs = s.regs ∨ w.left.regs = s.advance.regs)

/-- The base advance after a fetch makes no transaction. -/
theorem issued_advance {s s2 : State} {ts : List Transaction} (h : After s s2 ts) : Issued s s2.advance ts :=
  h.issued ⟨rfl, rfl, rfl⟩

theorem step_fault {s : State} {w : Fault} (h : step s = .fault w) : StepStops s w := by
  by_cases hpc : s.pc = 0xFFFF
  · rw [step_of_sentinel hpc] at h
    cases h
    exact .sentinel hpc rfl
  · rw [step_of_not_sentinel hpc] at h
    rcases finish_eq_fault.mp h with hfetch | ⟨word, s2, hfetch, hexec⟩
    · obtain ⟨ts, x, hafter, hok, hx, hlen⟩ := (runs_fetchWord s).stop w hfetch
      exact .transaction (hafter.issued (sameBus_refl _)) hok hx (by omega) (.inl hafter.regs)
    · obtain ⟨b0, b1, hreads, rfl⟩ := fetchWord_ok.mp hfetch
      rcases exec_fault hexec with ⟨hzero, hw⟩ | ⟨us, x, hafter, hok, hx, hlen⟩
      · exact .zeroDivisor hpc hreads hzero hw
      · obtain ⟨ts, hbefore, hfetched, hlen'⟩ := (runs_fetchWord s).ok _ s2 hfetch
        refine .transaction (ts := ts ++ us) (x := x) ?_ (fun y hy => ?_) hx (by rw [List.length_append]; omega)
          (.inr (hafter.regs.trans (advance_regs_congr hbefore.regs)))
        · rw [List.append_assoc]
          exact (issued_advance hbefore).trans (hafter.issued (sameBus_refl _))
        · rcases List.mem_append.mp hy with hy | hy
          · exact hfetched y hy
          · exact hok y hy

/-- A step that answers has had each of at most six transactions answered `Ok`. -/
theorem step_next {s t : State} (h : step s = .next t) :
    ∃ ts, Issued s t ts ∧ (∀ x ∈ ts, x.succeeded = true) ∧ ts.length ≤ 6 := by
  by_cases hpc : s.pc = 0xFFFF
  · rw [step_of_sentinel hpc] at h
    simp at h
  · rw [step_of_not_sentinel hpc] at h
    obtain ⟨word, s2, hfetch, hexec⟩ := finish_eq_next.mp h
    obtain ⟨ts, hbefore, hfetched, hlen⟩ := (runs_fetchWord s).ok word s2 hfetch
    obtain ⟨us, hissued, hok, hlen'⟩ := exec_next hexec
    refine ⟨ts ++ us, (issued_advance hbefore).trans hissued, fun x hx => ?_, by rw [List.length_append]; omega⟩
    rcases List.mem_append.mp hx with hx | hx
    · exact hfetched x hx
    · exact hok x hx

/-- The state a stopped step leaves comes from its transactions. -/
theorem StepStops.issued {s : State} {w : Fault} (h : StepStops s w) : ∃ ts, Issued s w.left ts := by
  cases h with
  | sentinel hpc hw => exact ⟨[], hw ▸ ⟨rfl, by simp, by simp, id⟩⟩
  | zeroDivisor hpc hfetch hzero hw =>
    rw [hw]
    exact ⟨_, issued_advance (readsPair_after hfetch).1⟩
  | transaction hissued hok hx hlen hregs => exact ⟨_, hissued⟩

/-- Transactions keep the invariant. -/
theorem Issued.inv {s t : State} {ts : List Transaction} (h : Issued s t ts) (hs : s.Inv) : t.Inv := by
  obtain ⟨hwf, hlog⟩ := hs
  refine ⟨h.wf hwf, fun x hx => ?_⟩
  rw [h.log] at hx
  rw [h.ctx]
  rcases List.mem_append.mp hx with hx | hx
  · exact hlog x hx
  · exact h.handles x hx

theorem stepCall_of_step_next {s t : State} (h : step s = .next t) : stepCall s = (.ok, t) := by
  simp [stepCall, h]

/-- A step call answers, or reports a fault of the step. -/
theorem stepCall_cases (s : State) :
    (∃ t, step s = .next t ∧ stepCall s = (.ok, t)) ∨
      ∃ w, step s = .fault w ∧ stepCall s = (w.result, w.left) := by
  cases h : step s with
  | next t => exact .inl ⟨t, rfl, stepCall_of_step_next h⟩
  | fault w => exact .inr ⟨w, rfl, stepCall_of_step_fault h⟩
  | refused r => exact absurd h (nothingIsRefused .nop s r).2

/-- A transaction answered `Ok` makes the step go on. -/
theorem succeeded_iff {x : Transaction} : x.succeeded = true ↔ x.result = .ok := by
  simp [Transaction.succeeded]

/-- The registers of a stopped step, but for pc, are those before it, and pc is at A or at P. -/
theorem regs_of_stop {s t : State} (h : t.regs = s.regs ∨ t.regs = s.advance.regs) :
    (∀ r, r ≠ Reg.pc → t.reg r = s.reg r) ∧ (t.pc = s.pc ∨ t.pc = s.pc + 2) := by
  rcases h with h | h
  · exact ⟨fun r _ => reg_congr h r, .inl (reg_congr h Reg.pc)⟩
  · refine ⟨fun r hr => ?_, .inr ?_⟩
    · rw [reg_congr h, reg_advance, if_neg hr]
    · rw [State.pc, reg_congr h, reg_advance, if_pos rfl]
      rfl

/-- A dictated error answers a read with its code. -/
theorem busRead_reject {s : State} {code : ErrorCode} {rest : List Directive} (h : s.bus.answers = .reject code :: rest)
    (a : Word) : ∃ t, busRead a s = .stop (.err code t) := by
  simp [busRead, Bus.answerRead, h, deliver, raise]

/-- A dictated silence never answers a read. -/
theorem busRead_silent {s : State} {rest : List Directive} (h : s.bus.answers = .silent :: rest) (a : Word) :
    ∃ t, busRead a s = .stop (.stuck t) := by
  simp [busRead, Bus.answerRead, h, deliver]

end Machine

open Machine

/-- Settles O53: what a step does, whether it answers or stops, is transactions, which keep the invariant. -/
theorem everyStepKeepsTheInvariant : Obligations.EveryStepKeepsTheInvariant := by
  refine fun s hinv => ⟨fun t hnext => ?_, fun f hfault => ?_⟩
  · obtain ⟨ts, hissued, -, -⟩ := step_next hnext
    exact ⟨hissued.inv hinv, hissued.ctx⟩
  · obtain ⟨ts, hissued⟩ := (step_fault hfault).issued
    exact ⟨hissued.inv hinv, hissued.ctx⟩

/-- Settles O7: the fetch reads leave the registers and the bytes, and the base advance moves pc alone. -/
theorem stepRunsTheDecodedInstruction : Obligations.StepRunsTheDecodedInstruction := by
  intro s s2 b0 b1 hpc hreads
  exact ⟨(encodeOfDecodeClearsUnreadBits _).1, s2.advance, step_of_readsPair hpc hreads,
    reg_advance_of_readsPair hreads, ⟨rfl, rfl, rfl⟩, readsPair_memoryKept hreads rfl⟩

/-- Settles O9: the step stops with its fetch, whose reads write no register and no byte. -/
theorem fetchFailureChangesNoRegister : Obligations.FetchFailureChangesNoRegister := by
  intro s f hpc hstops
  refine ⟨?_, readsPairStops_regs hstops, readsPairStops_memoryKept hstops, fun hfirst => ?_⟩
  · rw [step_of_not_sentinel hpc, fetchWord_stop.mpr hstops, finish_stop]
  · obtain ⟨ans, -, hafter, -⟩ := busRead_stop hfirst
    rw [hafter.log, List.length_append, List.length_singleton]

/-- Settles O13, by whether the step answers: each of its transactions is answered `Ok`, or each but the last. -/
theorem stepIssuesAtMostSixTransactions : Obligations.StepIssuesAtMostSixTransactions := by
  intro s
  rcases stepCall_cases s with ⟨t, hnext, hcall⟩ | ⟨w, hfault, hcall⟩
  · obtain ⟨ts, hissued, hok, hlen⟩ := step_next hnext
    rw [hcall]
    exact ⟨ts, hissued.log, hlen, hissued.handles, fun x hx => hok x (List.mem_of_mem_dropLast hx), fun _ => hok⟩
  · rw [hcall]
    have hne : w.result = .ok → ∀ ts : List Transaction, ∀ x ∈ ts, x.succeeded = true := fun h =>
      absurd h (result_ne_ok w)
    cases step_fault hfault with
    | sentinel hpc hw => exact ⟨[], by simp [hw], by simp, by simp, by simp, by simp⟩
    | zeroDivisor hpc hfetch hzero hw =>
      have hissued := issued_advance (readsPair_after hfetch).1
      exact ⟨_, hw ▸ hissued.log, by simp, hissued.handles, by simp [Transaction.succeeded, Transaction.result,
        BusAnswer.result], fun h => hne h _⟩
    | transaction hissued hok hx hlen hregs =>
      exact ⟨_, hissued.log, by rw [List.length_append]; simp only [List.length_singleton]; omega, hissued.handles,
        by simpa using hok, fun h => hne h _⟩

namespace Machine

/-- A first fetch read that stops is the result of the step, with every register and every byte as before. -/
theorem stepCall_of_fetch_stop {s : State} {w : Fault} (hpc : s.pc ≠ 0xFFFF) (h : busRead s.pc s = .stop w) :
    (stepCall s).1 = w.result ∧ (stepCall s).2.regs = s.regs ∧ memoryKept s (stepCall s).2 := by
  obtain ⟨hstep, hregs, hmem, -⟩ := fetchFailureChangesNoRegister s w hpc (.inl h)
  rw [stepCall_of_step_fault hstep]
  exact ⟨rfl, hregs, hmem⟩

end Machine

/-- Settles O46, by how the step ends: the one transaction that is not answered `Ok`, if there is one, is the last,
and its answer is the result. -/
theorem busAnswersPassVerbatim : Obligations.BusAnswersPassVerbatim := by
  refine ⟨fun s => ?any, fun s rest hpc => ⟨fun code hans => ?reject, fun hans => ?silent⟩⟩
  case any =>
    have goesOn {ts : List Transaction} (hok : ∀ x ∈ ts, x.succeeded = true) {P : Transaction → Prop} :
        ∀ x ∈ ts, x.result ≠ .ok → P x := fun x hx hne => absurd (succeeded_iff.mp (hok x hx)) hne
    rcases stepCall_cases s with ⟨t, hnext, hcall⟩ | ⟨w, hfault, hcall⟩
    · obtain ⟨ts, hissued, hok, -⟩ := step_next hnext
      rw [hcall]
      exact ⟨ts, hissued.log, goesOn hok, fun h => absurd rfl h⟩
    · rw [hcall]
      cases step_fault hfault with
      | sentinel hatSentinel hw =>
        subst hw
        exact ⟨[], (List.append_nil _).symm, by simp, fun _ => ⟨fun _ _ => rfl, .inl rfl, .inl ⟨hatSentinel, rfl⟩⟩⟩
      | zeroDivisor _ hfetch hzero hw =>
        subst hw
        obtain ⟨ra, rb, hi, hdivisor⟩ := hzero
        obtain ⟨hregs, hpc⟩ := regs_of_stop (.inr (advance_regs_congr (readsPair_after hfetch).1.regs))
        exact ⟨_, (issued_advance (readsPair_after hfetch).1).log,
          goesOn (by simp [Transaction.succeeded, Transaction.result, BusAnswer.result]),
          fun _ => ⟨hregs, hpc, .inr (.inl ⟨_, _, ra, rb, rfl, hi, hdivisor, rfl⟩)⟩⟩
      | @transaction ts x hissued hok hx _ hregs =>
        obtain ⟨hkept, hpc⟩ := regs_of_stop hregs
        refine ⟨ts ++ [x], hissued.log, fun y hy hne => ?_, fun _ => ⟨hkept, hpc, .inr (.inr ⟨x, by simp, hx⟩)⟩⟩
        rcases List.mem_append.mp hy with hy | hy
        · exact absurd (succeeded_iff.mp (hok y hy)) hne
        · rw [List.mem_singleton.mp hy]
          exact ⟨hx.symm, by simp⟩
  case reject =>
    obtain ⟨t, hstop⟩ := busRead_reject hans s.pc
    exact stepCall_of_fetch_stop hpc hstop
  case silent =>
    obtain ⟨t, hstop⟩ := busRead_silent hans s.pc
    exact stepCall_of_fetch_stop hpc hstop

end Sys2Proof


/-! Steps on a plain memory, where every transaction is answered `Ok` (20_memory.md R52; D14): the transactions of the
spec's table, and the two ways a step can still fail. -/
namespace Sys2Proof

namespace Machine

/-- Every address of a plain bus is plain memory. -/
theorem State.plain.plainAt {s : State} (h : s.plain) (a : Word) : s.plainAt a :=
  ⟨h.1, by rw [h.2]; rfl⟩

/-- What is plain is told from the bus alone. -/
theorem State.plain.congr {s t : State} (h : s.plain) (hb : t.bus = s.bus) : t.plain := by
  rw [State.plain, hb]
  exact h

/-- The accesses of a script on a plain memory with these bytes. -/
def Script.accesses : Script → Memory → List Access
  | .finish _, _ => []
  | .read a next, m => .read a :: (next (Memory.read m a.toNat)).accesses m
  | .write a v next, m => .write a :: next.accesses (Memory.write m a.toNat v)

/-- On a plain memory a script makes its accesses and leaves a plain memory. -/
theorem ask_plain (p : Script) {s : State} (h : s.plain) :
    ∃ f s1 ts, p.ask s = .ok f s1 ∧ s1.plain ∧ s1.log = s.log ++ ts ∧
      ts.map Transaction.access = p.accesses s.bus.cells := by
  induction p generalizing s with
  | finish f => exact ⟨f, s, [], rfl, h, (List.append_nil _).symm, rfl⟩
  | read a next ih =>
    have hread := busRead_plain (h.plainAt a)
    obtain ⟨f, s2, ts, hask, hplain, hlog, hmap⟩ := ih (s.byteAt a)
      (s := { s with log := s.log ++ [.read s.ctx a (.ok (s.byteAt a))] }) h
    refine ⟨f, s2, .read s.ctx a (.ok (s.byteAt a)) :: ts, ?_, hplain, ?_, congrArg (Access.read a :: ·) hmap⟩
    · rw [Script.ask, hread, andThen_ok, hask]
    · rw [hlog, List.append_assoc, List.singleton_append]
  | write a v next ih =>
    have hwrite := busWrite_plain (h.plainAt a) v
    obtain ⟨f, s2, ts, hask, hplain, hlog, hmap⟩ := ih
      (s := { s with
        bus := { s.bus with cells := Memory.write s.bus.cells a.toNat v }
        log := s.log ++ [.write s.ctx a v (.ok ())] }) h
    refine ⟨f, s2, .write s.ctx a v (.ok ()) :: ts, ?_, hplain, ?_, congrArg (Access.write a :: ·) hmap⟩
    · rw [Script.ask, hwrite, andThen_ok, hask]
    · rw [hlog, List.append_assoc, List.singleton_append]

/-- The second byte of a stack entry lies below sp. -/
theorem sub_two_add_one (a : Word) : a - 2 + 1 = a - 1 := by
  bv_omega

/-- The accesses of each handler's script are those of the table (R52). -/
theorem accesses_script (i : Instr) (s : State) : (script i s.regs).accesses s.bus.cells = tableAccesses i s := by
  cases i with
  | jmp | orImm | orr | and | xor | not | shl | shr | add | sub | mul | div | mod | nop | cmpEq | cmpGt | cmpLt | copy
  | swap | reservedExtAB | reservedExtCF | reservedStack8F => rfl
  | gm | sm | loadImm | jmpImm | ujmp | pushImm | pushReg | callReg | callAddr | storeAddr | loadAddr => rfl
  | popReg | ret =>
    rw [tableAccesses, ← sub_two_add_one]
    rfl

/-- On a plain memory a handler completes with the table's transactions, but for DIV and MOD with a zero divisor. -/
theorem exec_plain (i : Instr) {s : State} (h : s.plain) :
    (ZeroDivisor i s ∧ exec i s = .fault (.err .arithmeticFault s)) ∨
      ∃ t ts, exec i s = .next t ∧ t.plain ∧ t.log = s.log ++ ts ∧ ts.map Transaction.access = tableAccesses i s := by
  refine (exec_cases i s).imp_right fun hrun => ?_
  obtain ⟨f, s1, ts, hask, hplain, hlog, hmap⟩ := ask_plain (script i s.regs) h
  rw [hrun, Script.run, hask, finish_ok]
  exact ⟨_, ts, rfl, hplain.congr rfl, hlog, hmap.trans (accesses_script i s)⟩

end Machine

open Machine

/-- Settles O14: a handler that completes is not the one that stops by itself, and on a plain memory no other stops. -/
theorem transactionsFollowTheTable : Obligations.TransactionsFollowTheTable := by
  intro i s t hplain hnext
  rcases exec_plain i hplain with ⟨-, hzero⟩ | ⟨u, ts, hrun, -, hlog, hmap⟩
  · rw [hzero] at hnext
    simp at hnext
  · rw [hrun] at hnext
    cases hnext
    exact ⟨ts, hlog, hmap⟩

/-- Settles O12: away from the sentinel the fetch answers with the bytes at pc, and the handler of their word
completes but for a zero divisor. -/
theorem plainMemoryStepsFailOnlyAsStated : Obligations.PlainMemoryStepsFailOnlyAsStated := by
  intro s hplain
  by_cases hpc : s.pc = 0xFFFF
  · exact .inr (.inl ⟨hpc, step_of_sentinel hpc⟩)
  · obtain ⟨s2, hreads, hbus, -⟩ := readsPair_plain (hplain.plainAt s.pc) (hplain.plainAt (s.pc + 1))
    have hu : s2.advance.plain := hplain.congr hbus
    rw [step_of_readsPair hpc hreads]
    rcases exec_plain (decodeWord (s.byteAt s.pc ++ s.byteAt (s.pc + 1))) hu with ⟨hzero, hfault⟩ | ⟨t, _, hrun, ht, -⟩
    · obtain ⟨ra, rb, hi, hdivisor⟩ := hzero
      exact .inr (.inr ⟨ra, rb, s2.advance, hi, hdivisor, reg_advance_of_readsPair hreads, hu, hfault⟩)
    · exact .inl ⟨t, hrun, ht⟩

end Sys2Proof


/-! Two machines that differ only behind their buses (10_state.md; D13): the same registers, handle and dictated
answers take the same steps. -/
namespace Sys2Proof

namespace Machine

/-- Two machines with the same registers, handle and dictated answers, `n` or more, none left to a store. -/
structure Peers (s t : State) (n : Nat) : Prop where
  regs : s.regs = t.regs
  ctx : s.ctx = t.ctx
  answers : s.bus.answers = t.bus.answers
  enough : n ≤ s.bus.answers.length
  dictated : .served ∉ s.bus.answers

theorem Peers.mono {s t : State} {n m : Nat} (h : Peers s t n) (hm : m ≤ n) : Peers s t m :=
  ⟨h.regs, h.ctx, h.answers, hm.trans h.enough, h.dictated⟩

theorem Peers.reg {s t : State} {n : Nat} (h : Peers s t n) (r : Reg) : t.reg r = s.reg r :=
  reg_congr h.regs.symm r

/-- Peers with pc advanced are peers. -/
theorem Peers.advance {s t : State} {n : Nat} (h : Peers s t n) : Peers s.advance t.advance n :=
  ⟨advance_regs_congr h.regs, h.ctx, h.answers, h.enough, h.dictated⟩

/-- What two peers' operations come to is the same: the same value in peers with `n` answers left, or the same result
with the same registers; and the same transactions. -/
inductive Twin {α : Type} (s t : State) (n : Nat) : Reply α → Reply α → Prop
  | ok {v : α} {s' t' : State} {ts : List Transaction} (peers : Peers s' t' n) (hs : s'.log = s.log ++ ts)
      (ht : t'.log = t.log ++ ts) : Twin s t n (.ok v s') (.ok v t')
  | stop {w w' : Fault} {ts : List Transaction} (result : w.result = w'.result) (regs : w.left.regs = w'.left.regs)
      (hs : w.left.log = s.log ++ ts) (ht : w'.left.log = t.log ++ ts) : Twin s t n (.stop w) (.stop w')

/-- One answer in peers' states comes to the same. -/
theorem twin_deliver {α : Type} {s t s' t' : State} {n : Nat} {ts : List Transaction} (ans : BusAnswer α)
    (h : Peers s' t' n) (hs : s'.log = s.log ++ ts) (ht : t'.log = t.log ++ ts) :
    Twin s t n (deliver ans s') (deliver ans t') := by
  cases ans with
  | ok v => exact .ok h hs ht
  | err code => exact .stop rfl h.regs hs ht
  | silent => exact .stop rfl h.regs hs ht
  | runEnds => exact .stop rfl h.regs hs ht

/-- The answer a directive dictates to a read. -/
def Directive.readAnswer : Directive → BusAnswer Byte
  | .served => .silent
  | .reply v => .ok v
  | .reject code => .err code
  | .silent => .silent

/-- The answer a directive dictates to a write. -/
def Directive.writeAnswer : Directive → BusAnswer Unit
  | .served => .silent
  | .reply _ => .ok ()
  | .reject code => .err code
  | .silent => .silent

theorem answerRead_dictated {b : Bus} {d : Directive} {rest : List Directive} (h : b.answers = d :: rest)
    (hd : d ≠ .served) (a : Word) : b.answerRead a = (d.readAnswer, { b with answers := rest }) := by
  cases d with
  | served => exact absurd rfl hd
  | reply v => simp [Bus.answerRead, h, Directive.readAnswer]
  | reject code => simp [Bus.answerRead, h, Directive.readAnswer]
  | silent => simp [Bus.answerRead, h, Directive.readAnswer]

theorem answerWrite_dictated {b : Bus} {d : Directive} {rest : List Directive} (h : b.answers = d :: rest)
    (hd : d ≠ .served) (a : Word) (v : Byte) : b.answerWrite a v = (d.writeAnswer, { b with answers := rest }) := by
  cases d with
  | served => exact absurd rfl hd
  | reply v => simp [Bus.answerWrite, h, Directive.writeAnswer]
  | reject code => simp [Bus.answerWrite, h, Directive.writeAnswer]
  | silent => simp [Bus.answerWrite, h, Directive.writeAnswer]

/-- Peers have a next dictated answer in common, and are peers after it. -/
theorem Peers.next {s t : State} {n : Nat} (h : Peers s t (n + 1)) :
    ∃ d rest, d ≠ .served ∧ s.bus.answers = d :: rest ∧ t.bus.answers = d :: rest ∧ n ≤ rest.length ∧
      Directive.served ∉ rest := by
  have hlen := h.enough
  have hnot := h.dictated
  cases hs : s.bus.answers with
  | nil => simp [hs] at hlen
  | cons d rest =>
    rw [hs] at hlen hnot
    refine ⟨d, rest, fun hd => hnot (by simp [hd]), rfl, h.answers ▸ hs, by simpa using hlen,
      fun hmem => hnot (List.mem_cons_of_mem d hmem)⟩

/-- Peers' reads come to the same. -/
theorem twin_busRead {s t : State} {n : Nat} (h : Peers s t (n + 1)) (a : Word) :
    Twin s t n (busRead a s) (busRead a t) := by
  obtain ⟨d, rest, hd, hs, ht, hlen, hnot⟩ := h.next
  rw [busRead, busRead, answerRead_dictated hs hd, answerRead_dictated ht hd]
  exact twin_deliver _ ⟨h.regs, h.ctx, rfl, hlen, hnot⟩ rfl (by rw [h.ctx])

/-- Peers' writes come to the same. -/
theorem twin_busWrite {s t : State} {n : Nat} (h : Peers s t (n + 1)) (a : Word) (v : Byte) :
    Twin s t n (busWrite a v s) (busWrite a v t) := by
  obtain ⟨d, rest, hd, hs, ht, hlen, hnot⟩ := h.next
  rw [busWrite, busWrite, answerWrite_dictated hs hd, answerWrite_dictated ht hd]
  exact twin_deliver _ ⟨h.regs, h.ctx, rfl, hlen, hnot⟩ rfl (by rw [h.ctx])

/-- What comes to the same from where the same transactions led comes to the same from before them. -/
theorem Twin.after {α : Type} {s t s' t' : State} {n : Nat} {ts : List Transaction} {r r' : Reply α}
    (h : Twin s' t' n r r') (hs : s'.log = s.log ++ ts) (ht : t'.log = t.log ++ ts) : Twin s t n r r' := by
  cases h with
  | ok peers hs' ht' => exact .ok peers (by rw [hs', hs, List.append_assoc]) (by rw [ht', ht, List.append_assoc])
  | stop result regs hs' ht' =>
    exact .stop result regs (by rw [hs', hs, List.append_assoc]) (by rw [ht', ht, List.append_assoc])

/-- Operations that come to the same, one after another, come to the same. -/
theorem Twin.andThen {α β : Type} {s t : State} {n m : Nat} {r r' : Reply α} {f g : α → State → Reply β}
    (h : Twin s t n r r') (hf : ∀ v s' t', Peers s' t' n → Twin s' t' m (f v s') (g v t')) :
    Twin s t m (r.andThen f) (r'.andThen g) := by
  cases h with
  | ok peers hs ht => exact (hf _ _ _ peers).after hs ht
  | stop result regs hs ht => exact .stop result regs hs ht

/-- A script comes to the same in peers. -/
theorem twin_ask {p : Script} {n : Nat} (hp : p.Within n) {s t : State} (h : Peers s t n) :
    Twin s t 0 (p.ask s) (p.ask t) := by
  induction hp generalizing s t with
  | finish f n => exact .ok (ts := []) (h.mono (Nat.zero_le n)) (List.append_nil _).symm (List.append_nil _).symm
  | read _ ih => exact (twin_busRead h _).andThen fun v s' t' h' => ih v h'
  | write _ ih => exact (twin_busWrite h _ _).andThen fun _ s' t' h' => ih h'

/-- A fetch comes to the same in peers. -/
theorem twin_fetchWord {s t : State} {n : Nat} (h : Peers s t (n + 2)) : Twin s t n (fetchWord s) (fetchWord t) := by
  have hpc : t.pc = s.pc := h.reg Reg.pc
  rw [fetchWord, fetchWord, hpc]
  refine (twin_busRead h s.pc).andThen fun b0 s1 t1 h1 => (twin_busRead h1 (s.pc + 1)).andThen fun b1 s2 t2 h2 => ?_
  exact .ok (ts := []) h2 (List.append_nil _).symm (List.append_nil _).symm

/-- The outcomes of two peers are the same: both answer, or both stop with the same result, with the same registers
and the same transactions. -/
inductive SameOutcome (s t : State) :
    Host.Outcome State Fault Refusal → Host.Outcome State Fault Refusal → Prop
  | next {u u' : State} {ts : List Transaction} (regs : u.regs = u'.regs) (hs : u.log = s.log ++ ts)
      (ht : u'.log = t.log ++ ts) : SameOutcome s t (.next u) (.next u')
  | fault {w w' : Fault} {ts : List Transaction} (result : w.result = w'.result) (regs : w.left.regs = w'.left.regs)
      (hs : w.left.log = s.log ++ ts) (ht : w'.left.log = t.log ++ ts) : SameOutcome s t (.fault w) (.fault w')

/-- Outcomes that are the same from where the same transactions led are the same from before them. -/
theorem SameOutcome.after {s t s' t' : State} {ts : List Transaction} {o o' : Host.Outcome State Fault Refusal}
    (h : SameOutcome s' t' o o') (hs : s'.log = s.log ++ ts) (ht : t'.log = t.log ++ ts) : SameOutcome s t o o' := by
  cases h with
  | next regs hs' ht' => exact .next regs (by rw [hs', hs, List.append_assoc]) (by rw [ht', ht, List.append_assoc])
  | fault result regs hs' ht' =>
    exact .fault result regs (by rw [hs', hs, List.append_assoc]) (by rw [ht', ht, List.append_assoc])

/-- Operations that come to the same, and then outcomes that do, give the same outcome. -/
theorem Twin.finish {α : Type} {s t : State} {n : Nat} {r r' : Reply α}
    {f g : α → State → Host.Outcome State Fault Refusal} (h : Twin s t n r r')
    (hf : ∀ v s' t', Peers s' t' n → SameOutcome s' t' (f v s') (g v t')) :
    SameOutcome s t (r.finish f) (r'.finish g) := by
  cases h with
  | ok peers hs ht => exact (hf _ _ _ peers).after hs ht
  | stop result regs hs ht => exact .fault result regs hs ht

/-- A zero divisor is told from the registers. -/
theorem ZeroDivisor.congr {i : Instr} {s t : State} (h : t.regs = s.regs) (hz : ZeroDivisor i s) : ZeroDivisor i t := by
  obtain ⟨ra, rb, hi, hdivisor⟩ := hz
  exact ⟨ra, rb, hi, (reg_congr h rb).trans hdivisor⟩

/-- With a zero divisor the handler stops in its own state. -/
theorem exec_of_zeroDivisor {i : Instr} {s : State} (h : ZeroDivisor i s) :
    exec i s = .fault (.err .arithmeticFault s) := by
  obtain ⟨ra, rb, rfl | rfl, hdivisor⟩ := h
  · exact exec_div_zero ra hdivisor
  · exact exec_mod_zero ra hdivisor

/-- Without one it runs its script. -/
theorem exec_of_not_zeroDivisor {i : Instr} {s : State} (h : ¬ ZeroDivisor i s) : exec i s = (script i s.regs).run s :=
  (exec_cases i s).resolve_left fun hz => h hz.1

/-- A handler has the same outcome in peers: its script is chosen by the registers. -/
theorem sameOutcome_exec (i : Instr) {s t : State} (h : Peers s t 4) : SameOutcome s t (exec i s) (exec i t) := by
  by_cases hz : ZeroDivisor i s
  · rw [exec_of_zeroDivisor hz, exec_of_zeroDivisor (hz.congr h.regs.symm)]
    exact .fault (ts := []) rfl h.regs (List.append_nil _).symm (List.append_nil _).symm
  · rw [exec_of_not_zeroDivisor hz, exec_of_not_zeroDivisor fun hzt => hz (hzt.congr h.regs), ← h.regs]
    refine (twin_ask (within_script i s.regs) h).finish fun f s' t' h' => ?_
    exact .next (ts := []) (congrArg f h'.regs) (List.append_nil _).symm (List.append_nil _).symm

/-- A step has the same outcome in peers. -/
theorem sameOutcome_step {s t : State} (h : Peers s t 6) : SameOutcome s t (step s) (step t) := by
  have hpcs : t.pc = s.pc := h.reg Reg.pc
  by_cases hpc : s.pc = 0xFFFF
  · rw [step_of_sentinel hpc, step_of_sentinel (hpcs.trans hpc)]
    exact .fault (ts := []) rfl h.regs (List.append_nil _).symm (List.append_nil _).symm
  · rw [step_of_not_sentinel hpc, step_of_not_sentinel (hpcs ▸ hpc)]
    refine (twin_fetchWord h).finish fun w s' t' h' => ?_
    exact (sameOutcome_exec (decodeWord w) h'.advance).after (List.append_nil _).symm (List.append_nil _).symm

end Machine

open Machine

/-- Settles O47: two such machines are peers, and peers' steps have the same outcome. -/
theorem theBusIsTheOnlyInput : Obligations.TheBusIsTheOnlyInput := by
  intro s t hregs hctx hanswers hlen hnot
  have hsame := sameOutcome_step ⟨hregs, hctx, hanswers, hlen, hnot⟩
  unfold stepCall
  generalize step s = o, step t = o' at hsame
  cases hsame with
  | next regs hs ht => exact ⟨rfl, regs, _, hs, ht⟩
  | fault result regs hs ht => exact ⟨result, regs, _, hs, ht⟩

end Sys2Proof


/-! The instructions that use the bus on plain memory (20_memory.md; D14): the bytes read and stored, from what the
handlers do on any bus and what plain memory answers. -/
namespace Sys2Proof

namespace Machine

/-! ## What changes but the store, and what plain memory answers -/

theorem onlyStoreChanged_of_bus {s t : State} (hb : t.bus = s.bus) (hc : t.ctx = s.ctx) : onlyStoreChanged s t :=
  ⟨hc, by rw [hb]⟩

theorem onlyStoreChanged_trans {s t u : State} (h : onlyStoreChanged s t) (g : onlyStoreChanged t u) :
    onlyStoreChanged s u := by
  obtain ⟨hctx, hbus⟩ := h
  obtain ⟨hctx', hbus'⟩ := g
  refine ⟨hctx'.trans hctx, ?_⟩
  rw [hbus', hbus]

/-- Register writes after the transactions change neither the bus nor the handle. -/
theorem onlyStoreChanged_sameBus {s s' t : State} (h : onlyStoreChanged s s') (g : sameBus s' t) :
    onlyStoreChanged s t := by
  obtain ⟨hbus, hctx, -⟩ := g
  exact onlyStoreChanged_trans h (onlyStoreChanged_of_bus hbus hctx)

/-- Plain memory stays plain where only the store changed. -/
theorem plainAt_of_onlyStoreChanged {s t : State} {a : Word} (h : s.plainAt a) (g : onlyStoreChanged s t) :
    t.plainAt a := by
  obtain ⟨-, hbus⟩ := g
  rw [State.plainAt, hbus]
  exact h

/-- A byte is told from the bus alone. -/
theorem byteAt_congr {s t : State} (h : t.bus = s.bus) (a : Word) : t.byteAt a = s.byteAt a := by
  rw [State.byteAt, h, State.byteAt]

theorem sameBus_byteAt {s t : State} (h : sameBus s t) (a : Word) : t.byteAt a = s.byteAt a := byteAt_congr h.1 a

theorem sameBus_log {s t : State} (h : sameBus s t) : t.log = s.log := h.2.2

theorem wordAt_congr {s t : State} (h : memoryKept s t) (a : Word) : t.wordAt a = s.wordAt a := by
  rw [State.wordAt, h, h, State.wordAt]

/-- A word of memory is two reads that plain memory answers; they change only the record. -/
theorem readsPair_of_plainAt {s : State} {a : Word} (h : s.plainAt a) (h' : s.plainAt (a + 1)) :
    ∃ s2, readsPair a s (s.byteAt a) (s.byteAt (a + 1)) s2 ∧ s2.bus = s.bus ∧ onlyStoreChanged s s2 := by
  obtain ⟨s2, hreads, hbus, hctx, -⟩ := readsPair_plain h h'
  exact ⟨s2, hreads, hbus, onlyStoreChanged_of_bus hbus hctx⟩

/-- Two writes that plain memory answers store their bytes in a canonical store and change no other byte. -/
theorem writesPair_of_plainAt {s : State} {a : Word} (lo hi : Byte) (hwf : Memory.wf s.bus.cells = true)
    (h : s.plainAt a) (h' : s.plainAt (a + 1)) :
    ∃ s2, writesPair a lo hi s s2 ∧
      (∀ b : Word, s2.byteAt b = if b = a then lo else if b = a + 1 then hi else s.byteAt b) ∧ onlyStoreChanged s s2 ∧
      s2.log = s.log ++ [.write s.ctx a lo (.ok ()), .write s.ctx (a + 1) hi (.ok ())] := by
  obtain ⟨s2, hwrites, hctx, -, hbus, hlog⟩ := writesPair_plain lo hi h h'
  refine ⟨s2, hwrites, fun b => ?_, ⟨hctx, by rw [hbus]⟩, hlog⟩
  rw [State.byteAt, hbus]
  exact read_write_write hwf a b lo hi

/-- A value is its two bytes. -/
theorem eq_highByte_append_lowByte (v : Word) : v = highByte v ++ lowByte v := (highByte_append_lowByte v).symm

end Machine

open Machine

/-- Settles O38: the one transaction of each is answered by the store. -/
theorem indexedBytesOnPlainMemory : Obligations.IndexedBytesOnPlainMemory := by
  refine fun ra s hix => ⟨?gm, fun hwf => ?sm⟩
  case gm =>
    obtain ⟨t, hnext, hreg, ⟨hbus, hctx, hlog⟩, hmem⟩ :=
      (getMemoryReadsThroughTheIndex ra s).1 _ _ (busRead_plain hix)
    exact ⟨t, hnext, hreg, hmem, onlyStoreChanged_of_bus hbus hctx, hlog⟩
  case sm =>
    have hval := eq_highByte_append_lowByte (s.reg ra)
    obtain ⟨-, hsm⟩ := setMemoryWritesTheLowByte.2 ra _ _ s
    obtain ⟨t, hnext, hreg, ⟨hbus, hctx, hlog⟩, -⟩ := (hsm hval).1 _ (busWrite_plain hix (lowByte (s.reg ra)))
    refine ⟨t, hnext, hreg, fun b => ?_, ⟨hctx, by rw [hbus]⟩, hlog⟩
    rw [byteAt_congr hbus]
    exact read_write hwf s.ix b _

/-- Settles O39: the operand reads answer the word at pc. -/
theorem inlineOperandsOnPlainMemory : Obligations.InlineOperandsOnPlainMemory := by
  intro rb s hlo hhi
  obtain ⟨s2, hreads, -, honly⟩ := readsPair_of_plainAt hlo hhi
  obtain ⟨t, hload, hreg, hbus, hmem⟩ := (loadImmediateTakesTheInlineOperand rb s).1 _ _ _ hreads
  obtain ⟨⟨u, hjmpImm, hreg', hbus', hmem'⟩, v, hujmp, hreg'', hbus'', hmem''⟩ :=
    (jumpsToTheInlineAddress s).1 _ _ _ hreads
  exact ⟨⟨t, hload, hreg, hmem, onlyStoreChanged_sameBus honly hbus⟩,
    ⟨u, hjmpImm, hreg', hmem', onlyStoreChanged_sameBus honly hbus'⟩,
    ⟨v, hujmp, hreg'', hmem'', onlyStoreChanged_sameBus honly hbus''⟩⟩

/-- Settles O40: the writes of the push store the bytes, of the register or of the operand read before. -/
theorem pushesOnPlainMemory : Obligations.PushesOnPlainMemory := by
  refine fun s hwf hslot hslot' => ⟨fun rc => ?pushReg, fun hpc hpc' => ?pushImm⟩
  case pushReg =>
    obtain ⟨s2, hwrites, hbytes, honly, hlog⟩ :=
      writesPair_of_plainAt (lowByte (s.reg rc)) (highByte (s.reg rc)) hwf hslot hslot'
    obtain ⟨t, hnext, hreg, hsame, -⟩ :=
      (pushRegisterPushesTheValue rc _ _ s (eq_highByte_append_lowByte _)).1 _ hwrites
    exact ⟨t, hnext, hreg, fun b => (sameBus_byteAt hsame b).trans (hbytes b), onlyStoreChanged_sameBus honly hsame,
      (sameBus_log hsame).trans hlog⟩
  case pushImm =>
    obtain ⟨s2, hreads, hsame, honly⟩ := readsPair_of_plainAt hpc hpc'
    obtain ⟨s4, hwrites, hbytes, honly', -⟩ := writesPair_of_plainAt (s.byteAt s.pc) (s.byteAt (s.pc + 1))
      (hsame ▸ hwf) (plainAt_of_onlyStoreChanged hslot honly) (plainAt_of_onlyStoreChanged hslot' honly)
    obtain ⟨t, hnext, hreg, hbus, -⟩ := (pushImmediatePushesTheOperand s).1 _ _ _ _ hreads hwrites
    refine ⟨t, hnext, hreg, fun b => ?_, onlyStoreChanged_sameBus (onlyStoreChanged_trans honly honly') hbus⟩
    rw [sameBus_byteAt hbus, hbytes, byteAt_congr hsame]

/-- Settles O41: the reads of the pop answer the word below sp. -/
theorem popsOnPlainMemory : Obligations.PopsOnPlainMemory := by
  intro s hlo hhi
  rw [← sub_two_add_one] at hhi ⊢
  obtain ⟨s2, hreads, -, honly⟩ := readsPair_of_plainAt hlo hhi
  refine ⟨fun rc => ?popReg, ?ret⟩
  case popReg =>
    obtain ⟨t, hnext, hreg, hbus, hmem⟩ := (popRegisterPopsTheValue rc s).1 _ _ _ hreads
    exact ⟨t, hnext, hreg, hmem, onlyStoreChanged_sameBus honly hbus⟩
  case ret =>
    obtain ⟨t, hnext, hreg, hbus, hmem⟩ := (returnPopsTheProgramCounter s).1 _ _ _ hreads
    exact ⟨t, hnext, hreg, hmem, onlyStoreChanged_sameBus honly hbus⟩

/-- Settles O42: the writes of the push store the return address, and CALL_ADDR's target is read from what they left. -/
theorem callsOnPlainMemory : Obligations.CallsOnPlainMemory := by
  refine fun s hwf hslot hslot' => ⟨fun rc => ?callReg, fun hpc hpc' => ?callAddr⟩
  case callReg =>
    obtain ⟨s2, hwrites, hbytes, honly, -⟩ :=
      writesPair_of_plainAt (lowByte s.pc) (highByte s.pc) hwf hslot hslot'
    obtain ⟨t, hnext, hreg, hbus, -⟩ :=
      (callRegisterPushesTheNextAddress rc _ _ s (eq_highByte_append_lowByte _)).1 _ hwrites
    exact ⟨t, hnext, hreg, fun b => (sameBus_byteAt hbus b).trans (hbytes b), onlyStoreChanged_sameBus honly hbus⟩
  case callAddr =>
    obtain ⟨s2, hwrites, hbytes, honly, -⟩ :=
      writesPair_of_plainAt (lowByte (s.pc + 2)) (highByte (s.pc + 2)) hwf hslot hslot'
    obtain ⟨s4, hreads, hsame, honly'⟩ :=
      readsPair_of_plainAt (plainAt_of_onlyStoreChanged hpc honly) (plainAt_of_onlyStoreChanged hpc' honly)
    obtain ⟨t, hnext, hreg, hbus, -⟩ :=
      (callAddressPushesThenReadsTheTarget _ _ s (eq_highByte_append_lowByte _)).1 _ _ _ _ hwrites hreads
    have hmem : ∀ b, t.byteAt b = s2.byteAt b := fun b => (sameBus_byteAt hbus b).trans (byteAt_congr hsame b)
    refine ⟨t, hnext, fun r => ?_, fun b => (hmem b).trans (hbytes b),
      onlyStoreChanged_sameBus (onlyStoreChanged_trans honly honly') hbus⟩
    rw [wordAt_congr hmem]
    exact hreg r

/-- Settles O43: the operand reads answer the word at pc, and the word it names is then written or read. -/
theorem storeAndLoadOnPlainMemory : Obligations.StoreAndLoadOnPlainMemory := by
  intro rc s hpc hpc' hword hword'
  obtain ⟨s2, hreads, hsame, honly⟩ := readsPair_of_plainAt hpc hpc'
  have hplain := plainAt_of_onlyStoreChanged hword honly
  have hplain' := plainAt_of_onlyStoreChanged hword' honly
  refine ⟨fun hwf => ?store, ?load⟩
  case store =>
    obtain ⟨s4, hwrites, hbytes, honly', -⟩ :=
      writesPair_of_plainAt (lowByte (s.reg rc)) (highByte (s.reg rc)) (hsame ▸ hwf) hplain hplain'
    obtain ⟨t, hnext, hreg, hbus, -⟩ :=
      (storeWritesTheRegisterAtTheOperand rc _ _ s (eq_highByte_append_lowByte _)).1 _ _ _ _ hreads hwrites
    refine ⟨t, hnext, hreg, fun b => ?_, onlyStoreChanged_sameBus (onlyStoreChanged_trans honly honly') hbus⟩
    rw [sameBus_byteAt hbus, hbytes, byteAt_congr hsame]
    rfl
  case load =>
    obtain ⟨s4, hreads', -, honly'⟩ := readsPair_of_plainAt hplain hplain'
    obtain ⟨t, hnext, hreg, hbus, hmem⟩ := (loadReadsTheWordAtTheOperand rc s).1 _ _ _ _ _ _ hreads hreads'
    rw [byteAt_congr hsame, byteAt_congr hsame] at hreg
    exact ⟨t, hnext, hreg, hmem, onlyStoreChanged_sameBus (onlyStoreChanged_trans honly honly') hbus⟩

/-! ## A push and the pop of its slot -/

namespace Machine

/-- The pop address of a pushed stack pointer is the push address. -/
theorem add_two_sub_two (a : Word) : a + 2 - 2 = a := by
  bv_omega

theorem add_two_sub_one (a : Word) : a + 2 - 1 = a + 1 := by
  bv_omega

/-- RET from a slot just above which sp points: pc is the word of the slot, and sp is at the slot. -/
theorem exec_ret_of_slot {s : State} {a : Word} (hsp : s.sp = a + 2) (h : s.plainAt a) (h' : s.plainAt (a + 1)) :
    ∃ u, exec .ret s = .next u ∧ u.pc = s.byteAt (a + 1) ++ s.byteAt a ∧ u.sp = a := by
  have hlo : s.sp - 2 = a := by rw [hsp, add_two_sub_two]
  have hhi : s.sp - 1 = a + 1 := by rw [hsp, add_two_sub_one]
  obtain ⟨-, u, hnext, hreg, -⟩ := popsOnPlainMemory s (hlo.symm ▸ h) (hhi.symm ▸ h')
  refine ⟨u, hnext, ?_, ?_⟩
  · rw [State.pc, hreg, if_pos rfl, hlo, hhi]
  · rw [State.sp, hreg, if_neg (by decide), if_pos rfl, hlo]

/-- The bytes of a push are those of its value. -/
theorem slot_eq {f : Word → Byte} {a v : Word} {g : Word → Byte}
    (h : ∀ b, f b = if b = a then v.extractLsb' 0 8 else if b = a + 1 then v.extractLsb' 8 8 else g b) :
    f (a + 1) ++ f a = v := by
  rw [h, h, if_neg (succ_ne a), if_pos rfl, if_pos rfl]
  exact highByte_append_lowByte v

end Machine

/-- Settles O55: the pop reads back the bytes the push stored. -/
theorem pushThenPopRestoresTheRegister : Obligations.PushThenPopRestoresTheRegister := by
  intro rc s hwf hslot hslot'
  obtain ⟨t, hpush, hreg, hbytes, honly, -⟩ := (pushesOnPlainMemory s hwf hslot hslot').1 rc
  have hsp : t.advance.sp = s.sp + 2 := by
    rw [State.sp, reg_advance, if_neg (by decide), hreg, if_pos rfl]
  have hlo : t.advance.sp - 2 = s.sp := by rw [hsp, add_two_sub_two]
  have hhi : t.advance.sp - 1 = s.sp + 1 := by rw [hsp, add_two_sub_one]
  have hplain (a : Word) (h : s.plainAt a) : t.advance.plainAt a := plainAt_of_onlyStoreChanged h honly
  obtain ⟨hpop, -⟩ := popsOnPlainMemory t.advance (hlo.symm ▸ hplain _ hslot) (hhi.symm ▸ hplain _ hslot')
  obtain ⟨u, hnext, hregu, -⟩ := hpop rc
  rw [hlo, hhi, advance_byteAt, advance_byteAt, slot_eq hbytes] at hregu
  refine ⟨t, u, hpush, hnext, ?_, ?_, fun r hrc hpc => ?_⟩
  · rw [hregu, if_pos rfl]
  · rw [State.sp, hregu, if_pos rfl]
    split
    · next h => rw [← h]; rfl
    · rfl
  · rw [hregu, if_neg hrc]
    split
    · next h => rw [h]; rfl
    · next h => rw [reg_advance, if_neg hpc, hreg, if_neg h]

/-- Settles O56: RET reads back the return address the call stored. -/
theorem callThenReturnComesBack : Obligations.CallThenReturnComesBack := by
  intro s hwf hslot hslot'
  obtain ⟨hcallReg, hcallAddr⟩ := callsOnPlainMemory s hwf hslot hslot'
  refine ⟨fun rc => ?callReg, fun hpc hpc' => ?callAddr⟩
  case callReg =>
    obtain ⟨t, hnext, hreg, hbytes, -⟩ := hcallReg rc
    refine ⟨t, hnext, fun callee hsp hlo hhi hbyte hbyte' => ?_⟩
    obtain ⟨u, hret, hpcu, hspu⟩ := exec_ret_of_slot (hsp.trans (hreg Reg.sp)) hlo hhi
    exact ⟨u, hret, by rw [hpcu, hbyte, hbyte', slot_eq hbytes], hspu⟩
  case callAddr =>
    obtain ⟨t, hnext, hreg, hbytes, -⟩ := hcallAddr hpc hpc'
    refine ⟨t, hnext, fun callee hsp hlo hhi hbyte hbyte' => ?_⟩
    obtain ⟨u, hret, hpcu, hspu⟩ := exec_ret_of_slot (hsp.trans (hreg Reg.sp)) hlo hhi
    exact ⟨u, hret, by rw [hpcu, hbyte, hbyte', slot_eq hbytes], hspu⟩

end Sys2Proof


/-! The bus (20_memory.md R41 to R54): a write and a later read, a two-byte access whose second transaction stops, and
what the regions of the map and the harness's devices answer (60_exceptions.md R230 to R234). -/
namespace Sys2Proof

namespace Machine

/-! ## A transaction by the bus's answer -/

theorem busRead_of_answer {s : State} {a : Word} {ans : BusAnswer Byte} {b : Bus} (h : s.bus.answerRead a = (ans, b)) :
    busRead a s = deliver ans { s with bus := b, log := s.log ++ [.read s.ctx a ans] } := by
  rw [busRead, h]

theorem busWrite_of_answer {s : State} {a : Word} {v : Byte} {ans : BusAnswer Unit} {b : Bus}
    (h : s.bus.answerWrite a v = (ans, b)) :
    busWrite a v s = deliver ans { s with bus := b, log := s.log ++ [.write s.ctx a v ans] } := by
  rw [busWrite, h]

/-- The bus once the directive to serve a transaction, if there is one, is used up. -/
def Bus.undirected (b : Bus) : Bus := { b with answers := b.answers.tail }

/-- A served read is answered by the map and the store; a directive to serve it is used up. -/
theorem answerRead_of_served {s : State} (h : s.served) (a : Word) :
    s.bus.answerRead a = s.bus.undirected.serveRead a := by
  rcases h with h | ⟨rest, h⟩
  · simp only [Bus.answerRead, Bus.undirected, h, List.tail_nil]
    rw [← h]
  · simp only [Bus.answerRead, Bus.undirected, h, List.tail_cons]

theorem answerWrite_of_served {s : State} (h : s.served) (a : Word) (v : Byte) :
    s.bus.answerWrite a v = s.bus.undirected.serveWrite a v := by
  rcases h with h | ⟨rest, h⟩
  · simp only [Bus.answerWrite, Bus.undirected, h, List.tail_nil]
    rw [← h]
  · simp only [Bus.answerWrite, Bus.undirected, h, List.tail_cons]

/-- With nothing dictated the map and the store answer, and no directive is used up. -/
theorem answerRead_of_nil {b : Bus} (h : b.answers = []) (a : Word) : b.answerRead a = b.serveRead a := by
  simp only [Bus.answerRead, h]

theorem answerWrite_of_nil {b : Bus} (h : b.answers = []) (a : Word) (v : Byte) :
    b.answerWrite a v = b.serveWrite a v := by
  simp only [Bus.answerWrite, h]

/-! ## What a port serves -/

theorem serveRead_none {b : Bus} {a : Word} (h : portAt b.map a.toNat = none) :
    b.serveRead a = (.ok (Memory.read b.cells a.toNat), b) := by
  simp only [Bus.serveRead, h]

theorem serveRead_readOnly {b : Bus} {a : Word} (h : portAt b.map a.toNat = some .readOnly) :
    b.serveRead a = (.ok (Memory.read b.cells a.toNat), b) := by
  simp only [Bus.serveRead, h]

theorem serveRead_rejects {b : Bus} {a : Word} {code : ErrorCode} (h : portAt b.map a.toNat = some (.rejects code)) :
    b.serveRead a = (.err code, b) := by
  simp only [Bus.serveRead, h]

theorem serveWrite_none {b : Bus} {a : Word} (h : portAt b.map a.toNat = none) (v : Byte) :
    b.serveWrite a v = (.ok (), { b with cells := Memory.write b.cells a.toNat v }) := by
  simp only [Bus.serveWrite, h]

theorem serveWrite_readOnly {b : Bus} {a : Word} (h : portAt b.map a.toNat = some .readOnly) (v : Byte) :
    b.serveWrite a v = (.err .addressInvalid, b) := by
  simp only [Bus.serveWrite, h]

theorem serveWrite_rejects {b : Bus} {a : Word} {code : ErrorCode} (h : portAt b.map a.toNat = some (.rejects code))
    (v : Byte) : b.serveWrite a v = (.err code, b) := by
  simp only [Bus.serveWrite, h]

/-! ## A transaction that stops with a code -/

/-- Only the answer `Err(code)` ends a step with `Err(code)`. -/
theorem answer_of_result_err {α : Type} {ans : BusAnswer α} {code : ErrorCode} (h : ans.result = .err code) :
    ans = .err code := by
  cases ans <;> simp_all [BusAnswer.result]

/-- A read that stops with a code changes no register and no byte, and is on record with that answer. -/
theorem busRead_err {s t : State} {a : Word} {code : ErrorCode} (h : busRead a s = .stop (.err code t)) :
    t.regs = s.regs ∧ memoryKept s t ∧ t.log = s.log ++ [.read s.ctx a (.err code)] := by
  obtain ⟨ans, hresult, hafter, hcells⟩ := busRead_stop h
  cases answer_of_result_err hresult
  exact ⟨hafter.regs, fun b => by rw [State.byteAt, State.byteAt, ← hcells]; rfl, hafter.log⟩

/-- A write that stops with a code changes no register and no byte, and is on record with that answer. -/
theorem busWrite_err {s t : State} {a : Word} {v : Byte} {code : ErrorCode} (h : busWrite a v s = .stop (.err code t)) :
    t.regs = s.regs ∧ memoryKept s t ∧ t.log = s.log ++ [.write s.ctx a v (.err code)] := by
  obtain ⟨ans, hresult, hafter, hcells⟩ := busWrite_stop h
  cases answer_of_result_err hresult
  exact ⟨hafter.regs, fun b => by rw [State.byteAt, State.byteAt, ← hcells]; rfl, hafter.log⟩

/-- A dictated error answers a write with its code. -/
theorem busWrite_reject {s : State} {code : ErrorCode} {rest : List Directive}
    (h : s.bus.answers = .reject code :: rest) (a : Word) (v : Byte) : ∃ t, busWrite a v s = .stop (.err code t) := by
  simp [busWrite, Bus.answerWrite, h, deliver, raise]

/-- A rejecting region answers a served read with its code. -/
theorem busRead_rejected {s : State} {a : Word} {code : ErrorCode} (h : s.served)
    (hp : portAt s.bus.map a.toNat = some (.rejects code)) : ∃ t, busRead a s = .stop (.err code t) :=
  ⟨_, busRead_of_answer ((answerRead_of_served h a).trans (serveRead_rejects (b := s.bus.undirected) hp))⟩

/-- A rejecting region answers a served write with its code. -/
theorem busWrite_rejected {s : State} {a : Word} {code : ErrorCode} (h : s.served)
    (hp : portAt s.bus.map a.toNat = some (.rejects code)) (v : Byte) : ∃ t, busWrite a v s = .stop (.err code t) :=
  ⟨_, busWrite_of_answer ((answerWrite_of_served h a v).trans (serveWrite_rejects (b := s.bus.undirected) hp v))⟩

/-! ## Regions of the map -/

/-- The first region that holds an address decides its port. -/
theorem portAt_of_first {before after : List Region} {r : Region} {a : Nat} (h : ∀ q ∈ before, q.holds a = false)
    (hr : r.holds a = true) : portAt (before ++ r :: after) a = some r.port := by
  induction before with
  | nil => simp [portAt, hr]
  | cons q before ih =>
    have hq : q.holds a = false := h q List.mem_cons_self
    simpa [portAt, hq] using ih fun q' hq' => h q' (List.mem_cons_of_mem q hq')

/-- An address in no region is plain memory. -/
theorem portAt_of_none {m : List Region} {a : Nat} (h : ∀ q ∈ m, q.holds a = false) : portAt m a = none := by
  induction m with
  | nil => rfl
  | cons q m ih =>
    have hq : q.holds a = false := h q List.mem_cons_self
    simpa [portAt, hq] using ih fun q' hq' => h q' (List.mem_cons_of_mem q hq')

end Machine

open Machine

/-- Settles O57: the first two parts by induction on the map, the others by the port of the address. -/
theorem mapRegionsAnswer : Obligations.MapRegionsAnswer := by
  refine fun s a v => ⟨fun before r after hmap hbefore hr => ?first, portAt_of_none, fun hserved =>
    ⟨fun code hport => ?rejects, fun hport => ?readOnly⟩⟩
  case first =>
    rw [hmap]
    exact portAt_of_first hbefore hr
  case rejects =>
    obtain ⟨t, hread⟩ := busRead_rejected hserved hport
    obtain ⟨u, hwrite⟩ := busWrite_rejected hserved hport v
    exact ⟨⟨t, hread, busRead_err hread⟩, u, hwrite, busWrite_err hwrite⟩
  case readOnly =>
    have hport' : portAt s.bus.undirected.map a.toNat = some .readOnly := hport
    have hread := busRead_of_answer ((answerRead_of_served hserved a).trans (serveRead_readOnly hport'))
    have hwrite := busWrite_of_answer ((answerWrite_of_served hserved a v).trans (serveWrite_readOnly hport' v))
    exact ⟨⟨_, hread, rfl, fun b => rfl, rfl⟩, _, hwrite, rfl, fun b => rfl, rfl⟩


namespace Machine

/-- A served write to plain memory stores its byte, and uses up a directive to serve it. -/
theorem busWrite_served {s : State} {a : Word} (h : s.served) (hp : portAt s.bus.map a.toNat = none) (v : Byte) :
    ∃ s1, busWrite a v s = .ok () s1 ∧
      s1.bus = { s.bus.undirected with cells := Memory.write s.bus.cells a.toNat v } :=
  ⟨_, busWrite_of_answer ((answerWrite_of_served h a v).trans (serveWrite_none (b := s.bus.undirected) hp v)), rfl⟩

/-- A served read of plain memory gives its byte, and uses up a directive to serve it. -/
theorem busRead_served {s : State} {a : Word} (h : s.served) (hp : portAt s.bus.map a.toNat = none) :
    ∃ s1, busRead a s = .ok (s.byteAt a) s1 ∧ s1.bus = s.bus.undirected :=
  ⟨_, busRead_of_answer ((answerRead_of_served h a).trans (serveRead_none (b := s.bus.undirected) hp)), rfl⟩

end Machine

/-- Settles O44: the write is answered by the store, and the read after it by the store it left. -/
theorem plainReadGivesTheLatestWrite : Obligations.PlainReadGivesTheLatestWrite := by
  rintro s a b v hwf ⟨hans, ha⟩ ⟨-, hb⟩
  obtain ⟨t, hwrite, hbus⟩ := busWrite_served (.inl hans) ha v
  have hplain : t.plainAt b := ⟨by rw [hbus, Bus.undirected, hans, List.tail_nil], by rw [hbus]; exact hb⟩
  have hbyte : t.byteAt b = if b = a then v else s.byteAt b := by
    rw [State.byteAt, hbus]
    exact read_write hwf a b v
  have hregs := (busWrite_ok hwrite).1.regs
  have hread := busRead_plain hplain
  rw [hbyte] at hread
  exact ⟨t, _, hwrite, hread, hregs, hregs, fun c => rfl⟩

/-! ## A two-byte access whose second transaction stops -/

namespace Machine

/-- A two-byte write whose second write stops has stored its first byte. -/
theorem memWrite16_torn {s s1 : State} {a : Word} {lo hi : Byte} {w : Fault} (hwf : Memory.wf s.bus.cells = true)
    (h1 : busWrite a lo s = .ok () s1) (hcells : s1.bus.cells = Memory.write s.bus.cells a.toNat lo)
    (h2 : busWrite (a + 1) hi s1 = .stop w) :
    memWrite16 a (hi ++ lo) s = .stop w ∧ w.left.regs = s.regs ∧
      (∀ b : Word, w.left.byteAt b = if b = a then lo else s.byteAt b) ∧
      ∃ ans, ans.result = w.result ∧
        w.left.log = s.log ++ [.write s.ctx a lo (.ok ()), .write s.ctx (a + 1) hi ans] := by
  have hstops : writesPairStops a lo hi s w := .inr ⟨s1, h1, h2⟩
  obtain ⟨hafter, -⟩ := busWrite_ok h1
  obtain ⟨ans, hresult, hafter', hkept⟩ := busWrite_stop h2
  rw [hafter.ctx] at hafter'
  refine ⟨memWrite16_of_writesPairStops hstops, writesPairStops_regs hstops, fun b => ?_, ans, hresult,
    (hafter.trans hafter').log⟩
  rw [State.byteAt, hkept, hcells]
  exact read_write hwf a b lo

/-- A two-byte read whose second read stops has made its first. -/
theorem memRead16_torn {s s1 : State} {a : Word} {lo : Byte} {w : Fault} (h1 : busRead a s = .ok lo s1)
    (h2 : busRead (a + 1) s1 = .stop w) :
    memRead16 a s = .stop w ∧ w.left.regs = s.regs ∧ memoryKept s w.left ∧
      ∃ ans, ans.result = w.result ∧ w.left.log = s.log ++ [.read s.ctx a (.ok lo), .read s.ctx (a + 1) ans] := by
  have hstops : readsPairStops a s w := .inr ⟨lo, s1, h1, h2⟩
  obtain ⟨hafter, -⟩ := busRead_ok h1
  obtain ⟨ans, hresult, hafter', -⟩ := busRead_stop h2
  rw [hafter.ctx] at hafter'
  exact ⟨memRead16_of_readsPairStops hstops, readsPairStops_regs hstops, readsPairStops_memoryKept hstops, ans, hresult,
    (hafter.trans hafter').log⟩

/-- The transaction after a served one stops with a code: the host dictates it, or the map rejects its address. -/
def SecondRejected (s : State) (a : Word) (code : ErrorCode) : Prop :=
  (∃ rest, s.bus.answers = .served :: .reject code :: rest) ∨
    (s.bus.answers = [] ∧ portAt s.bus.map (a + 1).toNat = some (.rejects code))

theorem busWrite_of_secondRejected {s s1 : State} {a : Word} {code : ErrorCode} (h : SecondRejected s a code)
    (hans : s1.bus.answers = s.bus.answers.tail) (hmap : s1.bus.map = s.bus.map) (v : Byte) :
    ∃ t, busWrite (a + 1) v s1 = .stop (.err code t) := by
  rcases h with ⟨rest, h⟩ | ⟨h, hport⟩
  · exact busWrite_reject (rest := rest) (by rw [hans, h, List.tail_cons]) (a + 1) v
  · exact busWrite_rejected (.inl (by rw [hans, h, List.tail_nil])) (hmap ▸ hport) v

theorem busRead_of_secondRejected {s s1 : State} {a : Word} {code : ErrorCode} (h : SecondRejected s a code)
    (hans : s1.bus.answers = s.bus.answers.tail) (hmap : s1.bus.map = s.bus.map) :
    ∃ t, busRead (a + 1) s1 = .stop (.err code t) := by
  rcases h with ⟨rest, h⟩ | ⟨h, hport⟩
  · exact busRead_reject (rest := rest) (by rw [hans, h, List.tail_cons]) (a + 1)
  · exact busRead_rejected (.inl (by rw [hans, h, List.tail_nil])) (hmap ▸ hport)

end Machine

/-- Settles O45: the first transaction is answered by the store, and where the second stops the access is torn. -/
theorem twoByteAccessIsNotAtomic : Obligations.TwoByteAccessIsNotAtomic := by
  intro s a lo hi hwf hserved hport
  obtain ⟨s1, hwrite, hbusw⟩ := busWrite_served hserved hport lo
  obtain ⟨s2, hread, hbusr⟩ := busRead_served hserved hport
  have torn (f : Fault) := memWrite16_torn (hi := hi) (w := f) hwf hwrite (by rw [hbusw])
  refine ⟨⟨s1, hwrite, torn⟩, ⟨s2, hread, fun f => memRead16_torn hread⟩, fun code hcode => ⟨?write, ?read⟩⟩
  case write =>
    obtain ⟨t, hstop⟩ := busWrite_of_secondRejected hcode (by rw [hbusw]; rfl) (by rw [hbusw]; rfl) hi
    obtain ⟨hmem, hregs, hbytes, ans, hresult, hlog⟩ := torn _ hstop
    cases answer_of_result_err hresult
    exact ⟨t, hmem, hregs, hbytes, hlog⟩
  case read =>
    obtain ⟨t, hstop⟩ := busRead_of_secondRejected (s1 := s2) hcode (by rw [hbusr]; rfl) (by rw [hbusr]; rfl)
    obtain ⟨hmem, hregs, hkept, ans, hresult, hlog⟩ := memRead16_torn hread hstop
    cases answer_of_result_err hresult
    exact ⟨t, hmem, hregs, hkept, hlog⟩

/-! ## The harness's map and its devices -/

namespace Machine

theorem serveRead_exitStrobe {b : Bus} {a : Word} (h : portAt b.map a.toNat = some .exitStrobe) :
    b.serveRead a = (.err .addressInvalid, b) := by
  simp only [Bus.serveRead, h]

theorem serveRead_charInput {b : Bus} {a : Word} (h : portAt b.map a.toNat = some .charInput) :
    b.serveRead a = b.readChar := by
  simp only [Bus.serveRead, h]

theorem serveRead_charOutput {b : Bus} {a : Word} (h : portAt b.map a.toNat = some .charOutput) :
    b.serveRead a = (.err .addressInvalid, b) := by
  simp only [Bus.serveRead, h]

theorem serveWrite_exitStrobe {b : Bus} {a : Word} (h : portAt b.map a.toNat = some .exitStrobe) (v : Byte) :
    b.serveWrite a v = (.runEnds, b) := by
  simp only [Bus.serveWrite, h]

theorem serveWrite_charInput {b : Bus} {a : Word} (h : portAt b.map a.toNat = some .charInput) (v : Byte) :
    b.serveWrite a v = (.err .addressInvalid, b) := by
  simp only [Bus.serveWrite, h]

theorem serveWrite_charOutput {b : Bus} {a : Word} (h : portAt b.map a.toNat = some .charOutput) (v : Byte) :
    b.serveWrite a v = (.ok (), { b with output := b.output ++ [v] }) := by
  simp only [Bus.serveWrite, h]

/-- A read of the character input takes the next character. -/
theorem readChar_cons {b : Bus} {c : Byte} {rest : List Byte} (h : b.input = c :: rest) :
    b.readChar = (.ok c, { b with input := rest }) := by
  simp only [Bus.readChar, h]

/-- After the last character it gives the end-of-input byte. -/
theorem readChar_eof {b : Bus} {e : Byte} (h : b.input = []) (he : b.eof = some e) : b.readChar = (.ok e, b) := by
  simp only [Bus.readChar, h, he]

/-- Without an end-of-input byte it never answers. -/
theorem readChar_silent {b : Bus} (h : b.input = []) (he : b.eof = none) : b.readChar = (.silent, b) := by
  simp only [Bus.readChar, h, he]

/-- Past the devices the harness's map has the ROM only. -/
theorem portAt_harnessMap_of_ge (n : Nat) (writable : Bool) {a : Nat} (h : 3 ≤ a) :
    portAt (harnessMap n writable) a = if writable = false ∧ a < 3 + n then some .readOnly else none := by
  have h0 : ¬ a ≤ 0 := by omega
  have h1 : ¬ a ≤ 1 := by omega
  have h2 : ¬ a ≤ 2 := by omega
  cases writable with
  | true => simp [harnessMap, portAt, Region.holds, h0, h1, h2]
  | false =>
    cases n with
    | zero => simp [harnessMap, portAt, Region.holds, h0, h1, h2, h]
    | succ n =>
      have hlast : a < 3 + (n + 1) ↔ a ≤ 3 + n := by omega
      simp [harnessMap, portAt, Region.holds, h0, h1, h2, h, hlast, Config.harnessRomBase]

end Machine

/-- Settles O58: the first three regions are the devices, and the fourth, where there is one, the ROM. -/
theorem harnessMapPlacesTheRom : Obligations.HarnessMapPlacesTheRom :=
  fun n writable _ => ⟨rfl, rfl, rfl, portAt_harnessMap_of_ge n writable⟩

/-- Settles O48: each transaction is served by the port the map gives its address. -/
theorem harnessDevicesAnswer : Obligations.HarnessDevicesAnswer := by
  intro s n writable v hans hmap
  obtain ⟨h0, h1, h2, -⟩ := hmap ▸ harnessMapPlacesTheRom n writable 0
  have read {a : Word} {ans : BusAnswer Byte} {b : Bus} (h : s.bus.serveRead a = (ans, b)) :=
    busRead_of_answer ((answerRead_of_nil hans a).trans h)
  have write {a : Word} {ans : BusAnswer Unit} {b : Bus} (h : s.bus.serveWrite a v = (ans, b)) :=
    busWrite_of_answer ((answerWrite_of_nil hans a v).trans h)
  have readInput {ans : BusAnswer Byte} {b : Bus} (h : s.bus.readChar = (ans, b)) :=
    read (a := 1) ((serveRead_charInput h1).trans h)
  exact ⟨⟨_, write (a := 0) (serveWrite_exitStrobe h0 v), rfl, rfl⟩,
    ⟨_, read (a := 0) (serveRead_exitStrobe h0), rfl, rfl⟩,
    fun c rest hinput => ⟨_, readInput (readChar_cons hinput), rfl, rfl⟩,
    fun e hinput heof => ⟨_, readInput (readChar_eof hinput heof), rfl, rfl⟩,
    fun hinput heof => ⟨_, readInput (readChar_silent hinput heof), rfl, rfl⟩,
    ⟨_, write (a := 1) (serveWrite_charInput h1 v), rfl, rfl⟩,
    ⟨_, write (a := 2) (serveWrite_charOutput h2 v), rfl, rfl⟩,
    ⟨_, read (a := 2) (serveRead_charOutput h2), rfl, rfl⟩⟩

end Sys2Proof


/-! Construction and reset (70_reset_and_hazards.md), the bytes of a load, and runs under a limit (60_exceptions.md
R235 to R237). -/
namespace Sys2Proof

open Machine

namespace Machine

/-! ## Storing bytes one after another -/

/-- Each byte of a canonical store after a load from `a` on: byte `b - a` of what was loaded, or the byte before. -/
theorem read_storeBytes (bs : List Byte) (a b : Word) (m : Memory) (hwf : Memory.wf m = true)
    (hlen : bs.length ≤ 65536) :
    Memory.read (storeBytes bs a m) b.toNat = (bs[(b - a).toNat]?).getD (Memory.read m b.toNat) := by
  induction bs generalizing a m with
  | nil => rfl
  | cons v bs ih =>
    rw [List.length_cons] at hlen
    rw [storeBytes, ih (a + 1) _ (wf_write m a v hwf) (by omega), read_write hwf]
    by_cases hba : b = a
    · subst hba
      have hlast : (b - (b + 1)).toNat = 65535 := by bv_omega
      have hnone : bs[65535]? = none := List.getElem?_eq_none (by omega)
      rw [hlast, hnone, if_pos rfl, BitVec.sub_self]
      rfl
    · have hsucc : (b - a).toNat = (b - (a + 1)).toNat + 1 := by bv_omega
      rw [if_neg hba, hsucc, List.getElem?_cons_succ]

/-- A constructed machine with pc set to an entry point is the construction followed by that register write. -/
theorem reg_construct_set (regs : Vector Word 16) (bus : Bus) (ctx : Nat) (v : Word) (r : Reg) :
    (State.construct (regs.set 15 v) bus ctx).reg r = if r = Reg.pc then v else regs[r] :=
  reg_setReg (State.construct regs bus ctx) Reg.pc r v

/-- A construction has issued nothing, so the invariant is that its store is canonical. -/
theorem inv_construct (regs : Vector Word 16) {bus : Bus} (ctx : Nat) (h : Memory.wf bus.cells = true) :
    (State.construct regs bus ctx).Inv :=
  ⟨h, fun _ hx => absurd hx List.not_mem_nil⟩

/-! ## Runs under a limit -/

theorem runCalls_succ_of_ok {s t : State} (n : Nat) (h : stepCall s = (.ok, t)) :
    runCalls (n + 1) s = runCalls n t := by
  simp [runCalls, h]

/-- A run that ends in a failed step ends so under every larger limit, and under every smaller one answers `Ok` or
ends so. -/
theorem runCalls_of_ends {n : Nat} {s : State} {r : StepResult × State} (h : runCalls n s = r) (hr : r.1 ≠ .ok)
    (m : Nat) : ((runCalls m s).1 = .ok ∨ runCalls m s = r) ∧ (n ≤ m → runCalls m s = r) := by
  induction n generalizing s m with
  | zero =>
    rw [← h] at hr
    exact absurd rfl hr
  | succ n ih =>
    cases m with
    | zero => exact ⟨.inl rfl, fun hle => absurd hle (by omega)⟩
    | succ m =>
      rcases hcall : stepCall s with ⟨res, t⟩
      by_cases hok : res = .ok
      · subst hok
        rw [runCalls_succ_of_ok n hcall] at h
        rw [runCalls_succ_of_ok m hcall]
        obtain ⟨hsmall, hlarge⟩ := ih h m
        exact ⟨hsmall, fun hle => hlarge (by omega)⟩
      · have hend (k : Nat) : runCalls (k + 1) s = (res, t) := runCalls_succ_of_failed k hcall hok
        have hm : runCalls (m + 1) s = r := by rw [hend m, ← h, hend n]
        exact ⟨.inr hm, fun _ => hm⟩

end Machine

/-- Settles O50: construction keeps what it is given. -/
theorem constructionInstallsTheHostsRegisters : Obligations.ConstructionInstallsTheHostsRegisters :=
  fun _ _ _ => ⟨fun _ => rfl, rfl, rfl, rfl, beq_iff_eq⟩

/-- Settles O51: the reset registers are zeros with pc at the entry point. -/
theorem resetStateOfTheModel : Obligations.ResetStateOfTheModel := by
  refine ⟨fun r => ?_, rfl, ⟨rfl, rfl⟩, fun a => rfl⟩
  have hzero : (Vector.replicate 16 Config.initialRegister)[r] = 0 := Vector.getElem_replicate r.isLt
  rw [State.reset, resetRegs, reg_construct_set, hzero]
  rfl

/-- Settles O52: the reset state is a construction on the empty store. -/
theorem invariantHoldsAtReset : Obligations.InvariantHoldsAtReset :=
  ⟨inv_construct resetRegs 0 rfl, fun initRegs _ ctx hwf => inv_construct initRegs ctx hwf⟩

/-- Settles O49, by whether the ROM fits: a ROM that fits does not wrap onto the addresses below it. -/
theorem harnessLoadsTheRomAtThree : Obligations.HarnessLoadsTheRomAtThree := by
  refine fun regs ctx rom writable ram input eof hwf => ⟨fun hfits => ?fits, fun hlong => ?long⟩
  case fits =>
    have hread (a : Word) := read_storeBytes rom 3 a ram hwf (by omega)
    refine ⟨_, if_neg (Nat.not_lt.mpr hfits), ?_, fun r hr => ?_, rfl, rfl, fun i hi => ?_, fun a ha => ?_⟩
    · exact (reg_construct_set ..).trans (if_pos rfl)
    · exact (reg_construct_set ..).trans (if_neg hr)
    · have hat : (BitVec.ofNat 16 (3 + i) - 3).toNat = i := by bv_omega
      refine (hread _).trans ?_
      rw [hat, List.getElem?_eq_getElem hi, Option.getD_some]
    · have hpast : rom.length ≤ (a - 3).toNat := by bv_omega
      refine (hread a).trans ?_
      rw [List.getElem?_eq_none hpast, Option.getD_none]
  case long => exact if_pos hlong

/-- Settles O59: two ends under two limits agree under the larger. -/
theorem limitOnlyCutsARunShort : Obligations.LimitOnlyCutsARunShort := by
  rintro s r ⟨hr, n, hn⟩
  refine ⟨?_, fun m => (runCalls_of_ends hn hr m).1, n, fun m => (runCalls_of_ends hn hr m).2⟩
  rintro r' ⟨hr', n', hn'⟩
  rw [← (runCalls_of_ends hn' hr' (max n n')).2 (le_max_right n n'),
    (runCalls_of_ends hn hr (max n n')).2 (le_max_left n n')]

end Sys2Proof


/-! An instruction placed at pc (log 20): its four bytes are plain memory, the fetch reads the first two, and the
operand stands in the other two. -/
namespace Sys2Proof

namespace Machine

/-- The word that a number of the table's numbering gives, its bits 15 to 0. -/
def tableWord (nbits w : Nat) : Word := BitVec.ofNat 16 (w % 2 ^ nbits)

/-- The inline operand it gives, its bits 31 to 16. -/
def tableOperand (nbits w : Nat) : Word := BitVec.ofNat 16 (w % 2 ^ nbits / 65536)

/-- The four bytes in memory order. -/
theorem tableBytes_eq (nbits w : Nat) :
    tableBytes nbits w = [highByte (tableWord nbits w), lowByte (tableWord nbits w), lowByte (tableOperand nbits w),
      highByte (tableOperand nbits w)] := rfl

/-- A number of the table's numbering is the instruction of its first two bytes. -/
theorem decodeTableWord_eq (nbits w : Nat) :
    decodeTableWord nbits w = some (decodeWord (highByte (tableWord nbits w) ++ lowByte (tableWord nbits w))) := rfl

/-- Placing an instruction writes its bytes from pc on and leaves the other bytes. -/
theorem withFetchWord_byteAt {s : State} (hwf : Memory.wf s.bus.cells = true) (nbits w : Nat) (a : Word) :
    (s.withFetchWord nbits w).byteAt a = ((tableBytes nbits w)[(a - s.pc).toNat]?).getD (s.byteAt a) :=
  read_storeBytes (tableBytes nbits w) s.pc a s.bus.cells hwf (by rw [tableBytes_eq]; simp)

/-- The byte `k` of an instruction placed at pc. -/
theorem withFetchWord_byteAt_of_lt {s : State} (hwf : Memory.wf s.bus.cells = true) (nbits w : Nat) {a : Word} {k : Nat}
    {v : Byte} (ha : (a - s.pc).toNat = k) (hk : (tableBytes nbits w)[k]? = some v) :
    (s.withFetchWord nbits w).byteAt a = v := by
  rw [withFetchWord_byteAt hwf, ha, hk, Option.getD_some]

/-- A byte outside the four is as before. -/
theorem withFetchWord_byteAt_other {s : State} (hwf : Memory.wf s.bus.cells = true) (nbits w : Nat) {a : Word}
    (h0 : a ≠ s.pc) (h1 : a ≠ s.pc + 1) (h2 : a ≠ s.pc + 2) (h3 : a ≠ s.pc + 3) :
    (s.withFetchWord nbits w).byteAt a = s.byteAt a := by
  have hpast : 4 ≤ (a - s.pc).toNat := by bv_omega
  rw [withFetchWord_byteAt hwf, List.getElem?_eq_none hpast, Option.getD_none]

/-- The four bytes of a placed instruction are plain memory: the regions that touch them are gone, and so are the
dictated answers. -/
theorem withFetchWord_plainAt (s : State) (nbits w : Nat) {a : Word}
    (h : a = s.pc ∨ a = s.pc + 1 ∨ a = s.pc + 2 ∨ a = s.pc + 3) : (s.withFetchWord nbits w).plainAt a := by
  refine ⟨rfl, portAt_of_none fun r hr => ?_⟩
  obtain ⟨-, haway⟩ := List.mem_filter.mp hr
  have hfour : ((r.holds s.pc.toNat = false ∧ r.holds (s.pc + 1).toNat = false) ∧ r.holds (s.pc + 2).toNat = false) ∧
      r.holds (s.pc + 3).toNat = false := by
    simpa only [Region.touches, Bool.not_eq_true', Bool.or_eq_false_iff] using haway
  obtain ⟨⟨⟨hold0, hold1⟩, hold2⟩, hold3⟩ := hfour
  rcases h with rfl | rfl | rfl | rfl <;> assumption

end Machine

open Machine

/-- Settles O54: the fetch reads the word's two bytes from plain memory, and the operand's two stand after them. -/
theorem placedInstructionIsRunNext : Obligations.PlacedInstructionIsRunNext := by
  intro s nbits w i hwf hpc hi
  cases (decodeTableWord_eq nbits w).symm.trans hi
  have byte {a : Word} {k : Nat} {v : Byte} := withFetchWord_byteAt_of_lt hwf nbits w (a := a) (k := k) (v := v)
  have plain {a : Word} := withFetchWord_plainAt s nbits w (a := a)
  have hword0 : (s.withFetchWord nbits w).byteAt s.pc = highByte (tableWord nbits w) := byte (k := 0) (by simp) rfl
  have hword1 : (s.withFetchWord nbits w).byteAt (s.pc + 1) = lowByte (tableWord nbits w) :=
    byte (k := 1) (by bv_omega) rfl
  have hoperand0 : (s.withFetchWord nbits w).byteAt (s.pc + 2) = lowByte (tableOperand nbits w) :=
    byte (k := 2) (by bv_omega) rfl
  have hoperand1 : (s.withFetchWord nbits w).byteAt (s.pc + 2 + 1) = highByte (tableOperand nbits w) :=
    byte (k := 3) (by bv_omega) rfl
  obtain ⟨s2, hreads, hbus, hctx, -, hlog⟩ := readsPair_plain (plain (.inl rfl)) (plain (.inr (.inl rfl)))
  rw [hword0, hword1] at hreads hlog
  have hreg := reg_advance_of_readsPair hreads
  have hpc2 : s2.advance.pc = s.pc + 2 := (hreg Reg.pc).trans (if_pos rfl)
  have hmem (a : Word) : s2.advance.byteAt a = (s.withFetchWord nbits w).byteAt a := byteAt_congr hbus a
  have hplain {a : Word} (h : (s.withFetchWord nbits w).plainAt a) : s2.advance.plainAt a :=
    plainAt_of_onlyStoreChanged h (onlyStoreChanged_of_bus hbus hctx)
  refine ⟨s2.advance, step_of_readsPair hpc hreads, hreg, hbus, hctx, ?_, ?_, ?_, fun a h0 h1 h2 h3 => ?_, hlog⟩
  · rw [hpc2]
    exact hplain (plain (.inr (.inr (.inl rfl))))
  · rw [hpc2]
    exact hplain (plain (.inr (.inr (.inr (by bv_omega)))))
  · rw [hpc2, State.wordAt, hmem, hmem, hoperand0, hoperand1]
    exact highByte_append_lowByte (tableOperand nbits w)
  · exact (hmem a).trans (withFetchWord_byteAt_other hwf nbits w h0 h1 h2 h3)

end Sys2Proof
